-- ==== Sys2Proof/Word.lean ====
section
/-!
DEFINITION. The words of the modular_exponentiation_engine (MEE): the 32-bit register and operand word, the 4-bit
register index of a command word, and the 13-bit byte offset of the register space.
-/
namespace Sys2Proof

/-- A control register, a word of an operand register, or a command word (R23, R62, R80). -/
abbrev Word := BitVec 32

/-- A register field of a command word: a 4-bit unsigned index that names X[field] (R83). -/
abbrev RegIdx := BitVec 4

/-- A byte offset in the register space, 0x0000 to 0x1FFF (R60). -/
abbrev Offset := BitVec 13

/-- One byte lane of a word (R62). -/
abbrev Byte := BitVec 8

end Sys2Proof
end

