-- ==== Sys2Proof/Syntax.lean ====
section
/-!
DEFINITION. The command set (R82, R89): one constructor per row of the opcode table. A field is an argument exactly
where R82 gives the command a use for it.
-/
namespace Sys2Proof

/-- A command. Destinations stand before sources where the command word has them so; the fields keep the command
word's names: rd, rs1, rs2, rs3, rd2, rd3 (R81, R82). -/
inductive Instr where
  /-- NOP: no operation (R170). -/
  | nop
  /-- MODMUL: X[rd] receives X[rs1] times X[rs2] mod X[rs3] (R100). -/
  | modmul (rd rs1 rs2 rs3 : RegIdx)
  /-- MODEXP: X[rd] receives X[rs1] to the power X[rs2] mod X[rs3] (R110). -/
  | modexp (rd rs1 rs2 rs3 : RegIdx)
  /-- XGCD: X[rd], X[rd2], X[rd3] receive the gcd and the magnitudes of the two coefficients (R121). -/
  | xgcd (rd rs1 rs2 rd2 rd3 : RegIdx)
  /-- MODINV: X[rd] receives the inverse of X[rs1] mod X[rs2] (R124). -/
  | modinv (rd rs1 rs2 : RegIdx)
  /-- TDIV: trial division of X[rs1] (R142). -/
  | tdiv (rs1 : RegIdx)
  /-- MRROUND: one Miller–Rabin round of X[rs1] to the base X[rs2] (R145). -/
  | mrround (rs1 rs2 : RegIdx)
  /-- PRIMETEST: the full probabilistic test of X[rs1] (R152). -/
  | primetest (rs1 : RegIdx)
  deriving DecidableEq, Repr

end Sys2Proof
end

