-- ==== Sys2Proof/WellFormed.lean ====
section
/-!
DEFINITION. Checks 3 and 4 of decode_check (R88): the ones that read the fields of a command whose opcode and unused
fields are already right.
-/
namespace Sys2Proof

/-- R88 check 3, for one field: a register index in use is below NREG. -/
def indexBelow (nreg : Nat) (r : RegIdx) : Bool :=
  decide (r.toNat < nreg)

/-- R88 checks 3 and 4. Every register index in use is below NREG, and the three destinations of XGCD are pairwise
distinct. A command that fails it is ILLEGAL; sources may repeat and a destination may equal a source (R95). -/
def Instr.wellFormed (nreg : Nat) : Instr → Bool
  | .nop => true
  | .modmul rd rs1 rs2 rs3 => indexBelow nreg rd && indexBelow nreg rs1 && indexBelow nreg rs2 && indexBelow nreg rs3
  | .modexp rd rs1 rs2 rs3 => indexBelow nreg rd && indexBelow nreg rs1 && indexBelow nreg rs2 && indexBelow nreg rs3
  | .xgcd rd rs1 rs2 rd2 rd3 =>
      indexBelow nreg rd && indexBelow nreg rs1 && indexBelow nreg rs2 && indexBelow nreg rd2 && indexBelow nreg rd3
        && (rd != rd2 && rd != rd3 && rd2 != rd3)
  | .modinv rd rs1 rs2 => indexBelow nreg rd && indexBelow nreg rs1 && indexBelow nreg rs2
  | .tdiv rs1 => indexBelow nreg rs1
  | .mrround rs1 rs2 => indexBelow nreg rs1 && indexBelow nreg rs2
  | .primetest rs1 => indexBelow nreg rs1

end Sys2Proof
end

