-- ==== Sys2Proof/Decode.lean ====
section
/-!
DEFINITION. The command word (R80 to R83), its decoder (R82, R88) and its encoder.

`decode` is the table of R82: a word w encodes command c iff (w AND mask_c) = match_c. Checks 3 and 4 of R88 depend on
NREG and on the fields only, so they stand in `Instr.wellFormed`, and `decodeCheck` puts the four checks together.
-/
namespace Sys2Proof

/-- Why decode_check answers Err(ILLEGAL) (R88). Only the verdict is visible to the host; the names are the model's. -/
inductive DecodeError where
  /-- The bytes are not exactly one 32-bit word (R80). Never raised by a word in CMD. -/
  | notOneWord
  /-- Check 1: the opcode is 0x08 to 0xFF (R90). -/
  | reservedOpcode
  /-- Check 2: a field the command does not use is nonzero. -/
  | unusedField
  /-- Check 3: a register index in use is NREG or more. -/
  | registerIndex
  /-- Check 4: the destinations of XGCD are not pairwise distinct. -/
  | sameDestination
  deriving DecidableEq, Repr

/-! ### The fields (R81) -/

/-- OPC, bits 31:24. -/
def fieldOpc (w : Word) : BitVec 8 := w.extractLsb' 24 8
/-- RD, bits 23:20. -/
def fieldRd (w : Word) : RegIdx := w.extractLsb' 20 4
/-- RS1, bits 19:16. -/
def fieldRs1 (w : Word) : RegIdx := w.extractLsb' 16 4
/-- RS2, bits 15:12. -/
def fieldRs2 (w : Word) : RegIdx := w.extractLsb' 12 4
/-- RS3, bits 11:8. -/
def fieldRs3 (w : Word) : RegIdx := w.extractLsb' 8 4
/-- RD2, bits 7:4. -/
def fieldRd2 (w : Word) : RegIdx := w.extractLsb' 4 4
/-- RD3, bits 3:0. -/
def fieldRd3 (w : Word) : RegIdx := w.extractLsb' 0 4

/-! ### The opcode table (R82, R89) -/

/-- The eight opcodes. -/
inductive Opcode where
  | nop | modmul | modexp | xgcd | modinv | tdiv | mrround | primetest
  deriving DecidableEq, Repr

/-- Every opcode, in the table's order. -/
def Opcode.all : List Opcode :=
  [.nop, .modmul, .modexp, .xgcd, .modinv, .tdiv, .mrround, .primetest]

/-- The opcode numbers of R89. -/
def Opcode.number : Opcode → BitVec 8
  | .nop => 0x00
  | .modmul => 0x01
  | .modexp => 0x02
  | .xgcd => 0x03
  | .modinv => 0x04
  | .tdiv => 0x05
  | .mrround => 0x06
  | .primetest => 0x07

/-- The mask column of R82: a 1 in every bit that selects the command. -/
def Opcode.mask : Opcode → Word
  | .nop => 0xFFFFFFFF
  | .modmul => 0xFF0000FF
  | .modexp => 0xFF0000FF
  | .xgcd => 0xFF000F00
  | .modinv => 0xFF000FFF
  | .tdiv => 0xFFF0FFFF
  | .mrround => 0xFFF00FFF
  | .primetest => 0xFFF0FFFF

/-- The match column of R82. -/
def Opcode.pattern : Opcode → Word
  | .nop => 0x00000000
  | .modmul => 0x01000000
  | .modexp => 0x02000000
  | .xgcd => 0x03000000
  | .modinv => 0x04000000
  | .tdiv => 0x05000000
  | .mrround => 0x06000000
  | .primetest => 0x07000000

/-- R82: w encodes c iff (w AND mask_c) = match_c. -/
def Opcode.matchesWord (c : Opcode) (w : Word) : Bool :=
  w &&& c.mask == c.pattern

/-- The opcode a number stands for; none for the reserved ones, 0x08 to 0xFF (R90). -/
def opcodeOf (n : BitVec 8) : Option Opcode :=
  Opcode.all.find? (fun c => c.number == n)

/-- The command a word of opcode c stands for: its fields in use, pulled out once. -/
def Opcode.build (c : Opcode) (w : Word) : Instr :=
  match c with
  | .nop => .nop
  | .modmul => .modmul (fieldRd w) (fieldRs1 w) (fieldRs2 w) (fieldRs3 w)
  | .modexp => .modexp (fieldRd w) (fieldRs1 w) (fieldRs2 w) (fieldRs3 w)
  | .xgcd => .xgcd (fieldRd w) (fieldRs1 w) (fieldRs2 w) (fieldRd2 w) (fieldRd3 w)
  | .modinv => .modinv (fieldRd w) (fieldRs1 w) (fieldRs2 w)
  | .tdiv => .tdiv (fieldRs1 w)
  | .mrround => .mrround (fieldRs1 w) (fieldRs2 w)
  | .primetest => .primetest (fieldRs1 w)

/-- The decoder: the command a word encodes by R82, or which of checks 1 and 2 of R88 it fails. -/
def decode (w : Word) : Except DecodeError Instr :=
  match opcodeOf (fieldOpc w) with
  | none => .error .reservedOpcode
  | some c => if c.matchesWord w then .ok (c.build w) else .error .unusedField

/-- Checks 3 and 4 of R88 as names, in R88's order. -/
def fieldCheck (nreg : Nat) (i : Instr) : Except DecodeError Instr :=
  if i.wellFormed nreg then .ok i
  else match i with
    | .xgcd rd rs1 rs2 rd2 rd3 =>
        if [rd, rs1, rs2, rd2, rd3].all (indexBelow nreg) then .error .sameDestination else .error .registerIndex
    | _ => .error .registerIndex

/-- decode_check of R88 on a command word: the four checks in their order. -/
def decodeCheck (nreg : Nat) (w : Word) : Except DecodeError Instr :=
  match decode w with
  | .error e => .error e
  | .ok i => fieldCheck nreg i

/-- The four byte lanes of a word, lowest host address first: lane k carries bits 8k+7 to 8k (R62). -/
def bytesOfWord (w : Word) : List Byte :=
  [w.extractLsb' 0 8, w.extractLsb' 8 8, w.extractLsb' 16 8, w.extractLsb' 24 8]

/-- The decoder on bytes, total: exactly four bytes make a command word (R62, R80). -/
def decodeBytes : List Byte → Except DecodeError Instr
  | [b0, b1, b2, b3] => decode (b3 ++ b2 ++ b1 ++ b0)
  | _ => .error .notOneWord

/-! ### The encoder (R81, R82) -/

/-- The field tuple of R92: OPC, RD, RS1, RS2, RS3, RD2, RD3 from bit 31 down. -/
def packWord (opc : BitVec 8) (rd rs1 rs2 rs3 rd2 rd3 : RegIdx) : Word :=
  opc ++ rd ++ rs1 ++ rs2 ++ rs3 ++ rd2 ++ rd3

/-- The word of a command: its fields where R82 puts them, every unused field 0. -/
def encode : Instr → Word
  | .nop => packWord 0x00 0 0 0 0 0 0
  | .modmul rd rs1 rs2 rs3 => packWord 0x01 rd rs1 rs2 rs3 0 0
  | .modexp rd rs1 rs2 rs3 => packWord 0x02 rd rs1 rs2 rs3 0 0
  | .xgcd rd rs1 rs2 rd2 rd3 => packWord 0x03 rd rs1 rs2 0 rd2 rd3
  | .modinv rd rs1 rs2 => packWord 0x04 rd rs1 rs2 0 0 0
  | .tdiv rs1 => packWord 0x05 0 rs1 0 0 0 0
  | .mrround rs1 rs2 => packWord 0x06 0 rs1 rs2 0 0 0
  | .primetest rs1 => packWord 0x07 0 rs1 0 0 0 0

/-- The opcode of a command. -/
def opcodeOfInstr : Instr → Opcode
  | .nop => .nop
  | .modmul _ _ _ _ => .modmul
  | .modexp _ _ _ _ => .modexp
  | .xgcd _ _ _ _ _ => .xgcd
  | .modinv _ _ _ => .modinv
  | .tdiv _ => .tdiv
  | .mrround _ _ => .mrround
  | .primetest _ => .primetest

/-- What the decoder reads from an instruction whose bits are w, numbered as the opcode table numbers them: one word of
four bytes, the first at the lowest address. Every row has 32 bits; bits at nbits and above are 0. -/
def decodeTableWord (nbits w : Nat) : Option Instr :=
  (decodeBytes (bytesOfWord (BitVec.ofNat 32 (w % 2 ^ nbits)))).toOption

end Sys2Proof
end

