-- ==== Sys2Proof/Config.lean ====
section
/-!
DEFINITION. What an implementation fixes (R7: the build parameters) and what nothing fixes (the free values).
A free value is an opaque constant without a body: no proof can see what it is, so a claim holds whatever it is.
-/
namespace Sys2Proof

/-- The build parameters of R7. They are fixed when the block is built, so State carries them and no step changes
them; a claim over all states is a claim over every configuration. -/
structure Params where
  /-- NBITS: width of an operand register. -/
  nbits : Nat
  /-- NREG: number of operand registers. -/
  nreg : Nat
  /-- TD_LIMIT: trial division uses every prime below it. -/
  tdLimit : Nat
  /-- ENT_MAX_TRIES: candidates drawn per Miller–Rabin base. -/
  entMaxTries : Nat
  /-- The reset value of CFG.MR_ROUNDS. -/
  mrRoundsReset : BitVec 8
  deriving DecidableEq, Repr

/-- The reference configuration of the scope file's parameter table. -/
def Params.reference : Params :=
  { nbits := 2048, nreg := 8, tdLimit := 256, entMaxTries := 64, mrRoundsReset := 40 }

/-- The legal values of the parameter table. -/
def Params.legal (p : Params) : Bool :=
  p.nbits % 32 == 0 && decide (64 ≤ p.nbits) && decide (p.nbits ≤ 4096)
    && decide (4 ≤ p.nreg) && decide (p.nreg ≤ 16) && decide (p.nreg * p.nbits ≤ 32768)
    && decide (3 ≤ p.tdLimit) && decide (p.tdLimit ≤ 65536)
    && decide (1 ≤ p.entMaxTries) && decide (p.entMaxTries ≤ 65535)
    && p.mrRoundsReset != 0

/-- NBITS/32: the number of words of an operand register (R23). -/
def Params.words (p : Params) : Nat := p.nbits / 32

/-- FREE VALUE (log entry 2; R25, R68, U1 to U3). The 32-bit value seen where the spec gives none: word j of X[i] while it
is unwritten, or read by the host while a command runs. The first argument counts the draws. DESIGN CHOICE, safe: every
value is admitted. -/
opaque Config.ramWord (draw i j : Nat) : Word

/-- FREE VALUE (log entry 3; R147, U5, U6). The word the entropy source answers with, by the count of words taken.
DESIGN CHOICE, safe: every word is admitted. -/
opaque Config.entropyWord (taken : Nat) : Word

/-- FREE VALUE (log entry 3; R148, U6). Whether that answer carries ent_err. DESIGN CHOICE, safe: both are admitted. -/
opaque Config.entropyErr (taken : Nat) : Bool

/-- FREE VALUE (log entry 4; R15, R86, R193, R220, R222, U4, U19). The latency of a command: how many steps of the host at
most come between its issue and its completion, by the count of issues. It is finite, which is the weak fairness of R15; its
value is free. DESIGN CHOICE, safe: every fair interleaving is admitted. -/
opaque Config.latency (issue : Nat) : Nat

end Sys2Proof
end

