-- ==== Sys2Proof/Machine/State.lean ====
section
/-!
DEFINITION. The state of the machine as plain data (R22 to R41), the reasons a step can stop, and the state after
reset (R41).

The block's own state is the operand file, CTRL.IE, STATUS, CFG, CMD and XSGN; ID, PARAM and PARAM2 are constants of
the build parameters. `Env` holds the two other agents (R14) and the model's own bookkeeping.
-/
namespace Sys2Proof.Machine

/-! ### Why a step can stop -/

/-- The faults of the model. -/
inductive Fault where
  /-- BUS_ERROR (R61, R187, U15). Raised by a host access that is not an aligned 32-bit one, never by a command. The
  hardware answers bus_err = 1 and changes no state; R61 says that in the model the access is a host fault. Safe: the
  model stops where the hardware goes on. -/
  | busError
  deriving DecidableEq, Repr

/-- The refusals of the model. -/
inductive Refusal where
  /-- No meaning yet for the instruction of this mnemonic. Raised by `exec` only, in an arm that is not modelled; no
  arm is left so. Safe. -/
  | notModelled (mnemonic : String)
  deriving DecidableEq, Repr

/-! ### The parts of the state -/

/-- One 32-bit word of an operand register with its defined bit (R23, R25): `written` is Xw_def[i][j]. -/
structure OpWord where
  val : Word
  written : Bool
  deriving DecidableEq, Repr

/-- The six values of STATUS.ERRCODE (R181); 6 to 15 are never produced (U12). -/
inductive ErrCode where
  | ok | illegal | invalidParam | noInverse | entropy | aborted
  deriving DecidableEq, Repr

/-- The STATUS register (R31). ERR is not stored: it always equals (ERRCODE ≠ 0). -/
structure Status where
  busy : Bool
  done : Bool
  res : Bool
  ovr : Bool
  accerr : Bool
  errcode : ErrCode
  deriving DecidableEq, Repr

/-- The CFG register (R33). -/
structure Cfg where
  mrRounds : BitVec 8
  tdEn : Bool
  deriving DecidableEq, Repr

/-- The XSGN register (R35): the signs of the last successful XGCD's coefficients. -/
structure Xsgn where
  sNeg : Bool
  tNeg : Bool
  deriving DecidableEq, Repr

/-- The access size in bytes on the bus, bus_size (R20). -/
inductive AccessSize where
  | one | two | four
  deriving DecidableEq, Repr

/-- What the host side of the block can do (R11, R20, R94, R210), in the order the accesses reach the block (R70). -/
inductive HostOp where
  /-- A bus read at a byte offset. -/
  | read (addr : Offset) (size : AccessSize)
  /-- A bus write at a byte offset. -/
  | write (addr : Offset) (size : AccessSize) (data : Word)
  /-- WAIT of R94: repeat MemRead(0x014, 4) until BUSY = 0. -/
  | wait
  /-- Wait until the interrupt output is 1 (R72, R191). -/
  | waitIrq
  /-- The platform asserts and releases rst_n (R210). -/
  | hardReset
  deriving DecidableEq, Repr

/-- One answer of the entropy port: ent_data and ent_err (R20, R147). -/
structure EntropyAnswer where
  data : Word
  err : Bool
  deriving DecidableEq, Repr

/-- The entropy agent (R14, R40): the answers it has lined up for the commands that complete, oldest first, and how many it
has given beyond them. With none lined up the answer is a free value. DESIGN CHOICE (log entry 15): words taken by a command
that an abort or a reset discards are not among the lined-up ones. -/
structure EntropySource where
  answers : List EntropyAnswer
  taken : Nat
  deriving DecidableEq, Repr

/-- The agents that interleave (R14, R15); the entropy source acts inside the engine's step. -/
inductive Agent where
  | host | engine
  deriving DecidableEq, Repr

/-- The environment of the block and the model's bookkeeping. None of it is readable by a program, and no reset of the
block touches it. -/
structure Env where
  /-- The host's accesses still to come, oldest first. -/
  host : List HostOp
  /-- How many more steps of the host the running command lets come before it completes (R15, U4): the latency drawn at its
  issue, less the host's steps since. It plays no part while BUSY = 0. -/
  hold : Nat
  /-- How many commands have been issued, to which the free latency is applied. -/
  issues : Nat
  /-- The entropy agent. -/
  entropy : EntropySource
  /-- How many draws of arbitrary operand words there have been. -/
  ramDraws : Nat
  /-- bus_rdata of the host's last read (R20). -/
  rdata : Word
  /-- UNWRITTEN_OPERAND (R25): a command that passed its decode checks has read a register with an undefined word. DESIGN
  CHOICE (log entry 1): R25 stops the model here, this model records the event and goes on with free values. Safe. -/
  unwritten : Bool
  deriving DecidableEq, Repr

/-- The state of the machine. -/
structure State where
  /-- The build parameters, which ID, PARAM and PARAM2 report (R7, R27 to R29); no step changes them. -/
  params : Params
  /-- The operand register file X0 to X(NREG-1), word 0 first in each register (R22, R23). -/
  x : List (List OpWord)
  /-- CTRL.IE (R30); ABORT and SRST hold nothing. -/
  ie : Bool
  /-- STATUS (R31). -/
  status : Status
  /-- CFG (R33). -/
  cfg : Cfg
  /-- CMD, the word of the last accepted command; while BUSY = 1, the latched command (R34, R39). -/
  cmd : Word
  /-- XSGN (R35). -/
  xsgn : Xsgn
  /-- The other agents and the model's bookkeeping. -/
  env : Env
  deriving DecidableEq, Repr

/-! ### Reset (R41) -/

/-- A word of an operand register after reset: undefined (R25). DESIGN CHOICE (log entry 1): the stored 0 is bookkeeping
that no read gives, since a read of an undefined word gives a free value. -/
def OpWord.atReset : OpWord := { val := 0, written := false }

/-- STATUS after reset: 0x0000_0000. -/
def Status.atReset : Status :=
  { busy := false, done := false, res := false, ovr := false, accerr := false, errcode := .ok }

/-- The environment with nothing placed in it. -/
def Env.empty : Env :=
  { host := [], hold := 0, issues := 0, entropy := { answers := [], taken := 0 }, ramDraws := 0, rdata := 0,
    unwritten := false }

/-- The table of R41 for a block built with parameters p, beside an environment. -/
def State.resetWith (p : Params) (env : Env) : State :=
  { params := p
    x := List.replicate p.nreg (List.replicate p.words OpWord.atReset)
    ie := false
    status := Status.atReset
    cfg := { mrRounds := p.mrRoundsReset, tdEn := true }
    cmd := 0
    xsgn := { sNeg := false, tNeg := false }
    env := env }

/-- The machine right after reset, in the reference configuration, with no host access pending. -/
def State.reset : State := State.resetWith Params.reference Env.empty

end Sys2Proof.Machine
end

