-- ==== Sys2Proof/Machine/Flags.lean ====
section
/-!
DEFINITION. STATUS, CTRL, CFG, XSGN and the constant registers as 32-bit words (R27 to R35), what sets and clears each
STATUS bit (R31, R37, R38, R84, R86, R188), and the interrupt output (R191).
-/
namespace Sys2Proof.Machine

/-- The number of an error code (R181). -/
def ErrCode.number : ErrCode → Nat
  | .ok => 0
  | .illegal => 1
  | .invalidParam => 2
  | .noInverse => 3
  | .entropy => 4
  | .aborted => 5

/-- STATUS.ERR: always equals (ERRCODE ≠ 0) (R31). -/
def Status.err (t : Status) : Bool := t.errcode.number != 0

/-- The STATUS register as a read gives it (R31); reserved bits are 0. -/
def Status.toWord (t : Status) : Word :=
  BitVec.ofNat 32 (t.busy.toNat + 2 * t.done.toNat + 4 * t.err.toNat + 8 * t.res.toNat + 16 * t.ovr.toNat
    + 32 * t.accerr.toNat + 256 * t.errcode.number)

/-- A STATUS write (R32): bits 1, 4 and 5 clear DONE, OVR and ACCERR; every other bit is ignored. -/
def Status.writeOneToClear (v : Word) (t : Status) : Status :=
  { t with
    done := t.done && !v.getLsbD 1
    ovr := t.ovr && !v.getLsbD 4
    accerr := t.accerr && !v.getLsbD 5 }

/-- What an issue does to STATUS (R84). -/
def Status.issued (t : Status) : Status :=
  { t with busy := true, done := false, errcode := .ok, res := false }

/-- What a completion does to STATUS: code and result in, BUSY cleared, DONE set (R86). -/
def Status.completed (code : ErrCode) (res : Bool) (t : Status) : Status :=
  { t with errcode := code, res := res, busy := false, done := true }

/-- A CMD write was dropped (R85). -/
def Status.overrun (t : Status) : Status := { t with ovr := true }

/-- An operand or CFG write was dropped (R68). -/
def Status.accessError (t : Status) : Status := { t with accerr := true }

/-- A CTRL read: IE in bit 0, every other bit 0 (R30). -/
def ctrlWord (ie : Bool) : Word := BitVec.ofNat 32 ie.toNat

/-- The CFG register as a read gives it (R33). -/
def Cfg.toWord (c : Cfg) : Word := BitVec.ofNat 32 (c.mrRounds.toNat + 256 * c.tdEn.toNat)

/-- A CFG write while idle (R33): MR_ROUNDS keeps its value where the written field is 0 (WARL). -/
def Cfg.write (v : Word) (c : Cfg) : Cfg :=
  { mrRounds := if v.extractLsb' 0 8 = 0 then c.mrRounds else v.extractLsb' 0 8, tdEn := v.getLsbD 8 }

/-- The XSGN register as a read gives it (R35). -/
def Xsgn.toWord (g : Xsgn) : Word := BitVec.ofNat 32 (g.sNeg.toNat + 2 * g.tNeg.toNat)

/-- ID (R27): MAGIC 0x4D45, VERSION 0x0001. -/
def idWord : Word := 0x4D450001

/-- PARAM (R28): NBITS in bits 15:0, NREG in bits 23:16. -/
def paramWord (p : Params) : Word := BitVec.ofNat 32 (p.nbits % 2 ^ 16 + 2 ^ 16 * (p.nreg % 2 ^ 8))

/-- PARAM2 (R29): TD_LIMIT modulo 65536 in bits 15:0, ENT_MAX_TRIES in bits 31:16. -/
def param2Word (p : Params) : Word := BitVec.ofNat 32 (p.tdLimit % 2 ^ 16 + 2 ^ 16 * p.entMaxTries)

/-- irq = CTRL.IE AND STATUS.DONE (R191). -/
def State.irq (s : State) : Bool := s.ie && s.status.done

end Sys2Proof.Machine
end

