-- ==== Sys2Proof/Machine/Operands.lean ====
section
/-!
DEFINITION. The operand register file: its word view (R23), the defined bits and reads of undefined words (R25), and
which registers a command reads and writes (R24).
-/
namespace Sys2Proof.Machine

/-! ### Words and registers (R23) -/

/-- The value a read of word j of X[i] gives: the stored one if the word is defined, else the draw's (R25). -/
def OpWord.value (draw i j : Nat) (w : OpWord) : Word :=
  if w.written then w.val else Config.ramWord draw i j

/-- Σ_j Xw[i][j]·2^(32j) over the words of X[i] from word j on. -/
def wordsValue (draw i : Nat) : Nat → List OpWord → Nat
  | _, [] => 0
  | j, w :: ws => (w.value draw i j).toNat + 2 ^ 32 * wordsValue draw i (j + 1) ws

/-- The words a command writes for v, every one defined: word j is v[32j+31 : 32j] (R23, R25). -/
def wordsOf : Nat → Nat → List OpWord
  | 0, _ => []
  | k + 1, v => { val := BitVec.ofNat 32 v, written := true } :: wordsOf k (v / 2 ^ 32)

/-- The words of X[i]. -/
def State.reg (s : State) (i : Nat) : List OpWord := s.x.getD i []

/-- Word j of X[i]. -/
def State.word (s : State) (i j : Nat) : OpWord := (s.reg i).getD j OpWord.atReset

/-- X[r] read as one NBITS-bit natural number (R11). -/
def State.operand (s : State) (r : RegIdx) : Nat :=
  wordsValue s.env.ramDraws r.toNat 0 (s.reg r.toNat)

/-- Is every word of X[r] defined (R25)? -/
def State.operandDefined (s : State) (r : RegIdx) : Bool :=
  (s.reg r.toNat).all OpWord.written

/-! ### Which registers a command touches (R24) -/

/-- The registers a command reads. -/
def sources : Instr → List RegIdx
  | .nop => []
  | .modmul _ rs1 rs2 rs3 => [rs1, rs2, rs3]
  | .modexp _ rs1 rs2 rs3 => [rs1, rs2, rs3]
  | .xgcd _ rs1 rs2 _ _ => [rs1, rs2]
  | .modinv _ rs1 rs2 => [rs1, rs2]
  | .tdiv rs1 => [rs1]
  | .mrround rs1 rs2 => [rs1, rs2]
  | .primetest rs1 => [rs1]

/-- The registers a command may write. -/
def destinations : Instr → List RegIdx
  | .nop => []
  | .modmul rd _ _ _ => [rd]
  | .modexp rd _ _ _ => [rd]
  | .xgcd rd _ _ rd2 rd3 => [rd, rd2, rd3]
  | .modinv rd _ _ => [rd]
  | .tdiv _ => []
  | .mrround _ _ => []
  | .primetest _ => []

end Sys2Proof.Machine
end

