-- ==== Sys2Proof/Machine/Ops.lean ====
section
/-!
DEFINITION. The named operations on the state: one setter per field, issue (R84), the commit that ends every command
(R86, R87, R194), abort (R186), reset (R210, R211), and the frame every command's meaning shares.

The block takes no exception. What replaces one is the completion with an error code (R180, R194): `State.commit (.err
code)` is that shared operation, and the acknowledgment of R195 (`State.writeStatus`) is what stands for a return.
-/
namespace Sys2Proof.Machine

/-! ### Setters -/

def State.setX (s : State) (x : List (List OpWord)) : State := { s with x := x }
def State.setIe (s : State) (ie : Bool) : State := { s with ie := ie }
def State.setStatus (s : State) (t : Status) : State := { s with status := t }
def State.setCfg (s : State) (c : Cfg) : State := { s with cfg := c }
def State.setCmd (s : State) (w : Word) : State := { s with cmd := w }
def State.setXsgn (s : State) (g : Xsgn) : State := { s with xsgn := g }
def State.setEnv (s : State) (e : Env) : State := { s with env := e }

def Env.setHost (e : Env) (h : List HostOp) : Env := { e with host := h }
def Env.setHold (e : Env) (k : Nat) : Env := { e with hold := k }
def Env.setEntropy (e : Env) (src : EntropySource) : Env := { e with entropy := src }
def Env.countRamDraw (e : Env) : Env := { e with ramDraws := e.ramDraws + 1 }
def Env.setRdata (e : Env) (w : Word) : Env := { e with rdata := w }
def Env.markUnwritten (e : Env) : Env := { e with unwritten := true }

/-! ### Operand writes -/

/-- X[r] <- v: the whole register, every word of it defined (R23, R25). -/
def State.writeReg (s : State) (r : RegIdx) (v : Nat) : State :=
  s.setX (s.x.set r.toNat (wordsOf s.params.words v))

/-- The writes of a commit, in order (R86). -/
def State.writeRegs (s : State) : List (RegIdx × Nat) → State
  | [] => s
  | (r, v) :: ws => (s.writeReg r v).writeRegs ws

/-- Xw[i][j] <- v and Xw_def[i][j] <- 1 (R67). -/
def State.writeWord (s : State) (i j : Nat) (v : Word) : State :=
  s.setX (s.x.set i ((s.reg i).set j { val := v, written := true }))

/-! ### Issue, completion, abort, reset -/

/-- The model's record of an issue: the command's latency is drawn (R15, U4; log entry 4). -/
def Env.drawLatency (e : Env) : Env := { e with hold := Config.latency e.issues, issues := e.issues + 1 }

/-- Issue of w (R84). -/
def State.issue (s : State) (w : Word) : State :=
  ((s.setCmd w).setStatus s.status.issued).setEnv s.env.drawLatency

/-- What `execute` answers (R86): Ok with its writes, its Boolean result and, for XGCD only, the signs; or an error. -/
inductive CmdResult where
  | ok (writes : List (RegIdx × Nat)) (res : Bool) (xsgn : Option Xsgn)
  | err (code : ErrCode)
  deriving DecidableEq, Repr

/-- XSGN <- xsgn where a commit carries it (R86). -/
def State.commitSigns (s : State) : Option Xsgn → State
  | none => s
  | some g => s.setXsgn g

/-- commit(r) of R86. On an error nothing changes but STATUS (R87). -/
def State.commit (s : State) : CmdResult → State
  | .ok writes res xsgn => ((s.writeRegs writes).commitSigns xsgn).setStatus (s.status.completed .ok res)
  | .err code => s.setStatus (s.status.completed code false)

/-- The abort of R186: it discards the running command. DESIGN CHOICE (log entry 15): the spec does not say how many entropy
words a PRIMETEST aborted in mid-run has taken (R40, R147); here it takes none of the lined-up answers. -/
def State.abort (s : State) : State := s.commit (.err .aborted)

/-- A reset of the block, hardware or soft (R210, R211): R41's table; the other agents are untouched. DESIGN CHOICE (log
entries 9 and 15): a PRIMETEST it discards takes none of the lined-up entropy answers. -/
def State.resetBlock (s : State) : State := State.resetWith s.params s.env

/-! ### What every command's meaning shares (R86) -/

/-- Do the fields of a command pass checks 3 and 4 of R88 on this block? -/
def State.legal (s : State) (i : Instr) : Bool := i.wellFormed s.params.nreg

/-- The record of a read of undefined words (R25): the draw is counted and the event noted. -/
def State.noteReads (s : State) (rs : List RegIdx) : State :=
  if rs.all s.operandDefined then s else s.setEnv s.env.countRamDraw.markUnwritten

/-- The completion of command i with the result `execute` gives (R86): ILLEGAL first (R190), then the reads are noted,
then the commit. -/
def State.finish (s : State) (i : Instr) (r : CmdResult) : State :=
  if s.legal i then (s.noteReads (sources i)).commit r else s.commit (.err .illegal)

/-! ### Register writes that are system operations (R172) -/

/-- A STATUS write (R32): the acknowledgment of R195. -/
def State.writeStatus (s : State) (v : Word) : State := s.setStatus (s.status.writeOneToClear v)

/-- ABORT acts only while BUSY = 1 (R186). -/
def State.abortIf (s : State) (b : Bool) : State := if b && s.status.busy then s.abort else s

/-- A CTRL write (R30, R186, R211): SRST alone acts where it is set. -/
def State.writeCtrl (s : State) (v : Word) : State :=
  if v.getLsbD 2 then s.resetBlock else (s.setIe (v.getLsbD 0)).abortIf (v.getLsbD 1)

/-- A CFG write: dropped with ACCERR while BUSY = 1 (R33, R68). -/
def State.writeCfg (s : State) (v : Word) : State :=
  if s.status.busy then s.setStatus s.status.accessError else s.setCfg (s.cfg.write v)

/-- A CMD write: an issue while idle (R84), dropped with OVR while BUSY = 1 (R85). -/
def State.writeCmd (s : State) (w : Word) : State :=
  if s.status.busy then s.setStatus s.status.overrun else s.issue w

/-- A write to word j of X[i]: dropped with ACCERR while BUSY = 1 (R67, R68). -/
def State.writeOperandWord (s : State) (i j : Nat) (v : Word) : State :=
  if s.status.busy then s.setStatus s.status.accessError else s.writeWord i j v

end Sys2Proof.Machine
end

