-- ==== Sys2Proof/Machine/Bus.lean ====
section
/-!
DEFINITION. The host side: the register map (R63 to R65), bus reads and writes (R61, R66 to R68), and one step of the
host agent (R14, R94).
-/
namespace Sys2Proof.Machine

/-! ### The register map -/

/-- What a word-aligned offset names (R64). -/
inductive Target where
  | id | param | param2 | ctrl | status | cfg | cmd | xsgn
  /-- Word j of X[i] (R63). -/
  | operand (i j : Nat)
  | reserved
  deriving DecidableEq, Repr

/-- XADDR(i, j) of R63. -/
def xaddr (p : Params) (i j : Nat) : Nat := 0x1000 + i * (p.nbits / 8) + 4 * j

/-- The register map of R64. An offset in the operand window is word j of X[i] with XADDR(i, j) that offset. -/
def target (p : Params) (a : Offset) : Target :=
  if a = 0x000 then .id
  else if a = 0x004 then .param
  else if a = 0x008 then .param2
  else if a = 0x010 then .ctrl
  else if a = 0x014 then .status
  else if a = 0x018 then .cfg
  else if a = 0x01C then .cmd
  else if a = 0x020 then .xsgn
  else if 0x1000 ≤ a.toNat ∧ a.toNat < xaddr p p.nreg 0 then
    .operand ((a.toNat - 0x1000) / (p.nbits / 8)) ((a.toNat - 0x1000) % (p.nbits / 8) / 4)
  else .reserved

/-! ### Reads -/

/-- Is the answer of a read a draw? A read of an operand word that is undefined, or while BUSY = 1 (R25, R68). -/
def State.readDraws (s : State) : Target → Bool
  | .operand i j => s.status.busy || !(s.word i j).written
  | _ => false

/-- A read of word j of X[i]: a draw while BUSY = 1, else the word, or a draw where it is undefined (R67, R68). -/
def State.readOperandWord (s : State) (i j : Nat) : Word :=
  if s.status.busy then Config.ramWord s.env.ramDraws i j else (s.word i j).value s.env.ramDraws i j

/-- The value a read gives (R27 to R36, R65, R67, R68). -/
def State.readTarget (s : State) : Target → Word
  | .id => idWord
  | .param => paramWord s.params
  | .param2 => param2Word s.params
  | .ctrl => ctrlWord s.ie
  | .status => s.status.toWord
  | .cfg => s.cfg.toWord
  | .cmd => s.cmd
  | .xsgn => s.xsgn.toWord
  | .operand i j => s.readOperandWord i j
  | .reserved => 0

/-- MemRead(addr, 4): bus_rdata of a legal read. -/
def State.busRead (s : State) (a : Offset) : Word := s.readTarget (target s.params a)

/-- The model's record of a draw by a read; the block itself does not change (R66). -/
def State.noteRead (s : State) (t : Target) : State :=
  if s.readDraws t then s.setEnv s.env.countRamDraw else s

/-- The host receives bus_rdata. -/
def State.answerRead (s : State) (a : Offset) : State :=
  let t := s.noteRead (target s.params a)
  t.setEnv (t.env.setRdata (s.busRead a))

/-! ### Writes -/

/-- The effect of a legal write (R30 to R36, R65 to R68). -/
def State.writeTarget (s : State) (v : Word) : Target → State
  | .ctrl => s.writeCtrl v
  | .status => s.writeStatus v
  | .cfg => s.writeCfg v
  | .cmd => s.writeCmd v
  | .operand i j => s.writeOperandWord i j v
  | .id => s
  | .param => s
  | .param2 => s
  | .xsgn => s
  | .reserved => s

/-- MemWrite(addr, 4, v). -/
def State.busWrite (s : State) (a : Offset) (v : Word) : State := s.writeTarget v (target s.params a)

/-! ### One step of the host -/

/-- Only aligned 32-bit accesses are legal (R61). -/
def legalAccess (a : Offset) (z : AccessSize) : Bool := z == .four && a.extractLsb' 0 2 == 0

/-- The host's next operation: it leaves the list of operations, but for a wait that must go on (R94). -/
def hostOp (s : State) (rest : List HostOp) (op : HostOp) : Host.Outcome State Fault Refusal :=
  let s' := s.setEnv (s.env.setHost rest)
  match op with
  | .read a z => if legalAccess a z then .next (s'.answerRead a) else .fault .busError
  | .write a z v => if legalAccess a z then .next (s'.busWrite a v) else .fault .busError
  | .wait => .next ((if s.status.busy then s else s').answerRead 0x014)
  | .waitIrq => .next (if s.irq then s' else s)
  | .hardReset => .next s'.resetBlock

/-- One step of the host agent; with no operation left it leaves the state alone (R202). -/
def hostStep (s : State) : Host.Outcome State Fault Refusal :=
  match s.env.host with
  | [] => .next s
  | op :: rest => hostOp s rest op

end Sys2Proof.Machine
end

