-- ==== Sys2Proof/Machine/Control.lean ====
section
/-!
DEFINITION. The control command: NOP (R170).
-/
namespace Sys2Proof.Machine

/-- NOP (R170): it completes with no write and result 0. -/
def execNop (s : State) : Host.Outcome State Fault Refusal :=
  .next (s.finish .nop (.ok [] false none))

end Sys2Proof.Machine
end

