-- ==== Sys2Proof/Machine/Arith.lean ====
section
/-!
DEFINITION. The exact integer arithmetic of the four units (R9): modular exponentiation, the Bézout recursion, trial
division and the Miller–Rabin round. Every function is structural recursion on a count or on fuel that its argument
bounds, so that it can be evaluated; `Sys2Proof/Laws/Arith.lean` shows that each is what the spec's formula says.
-/
namespace Sys2Proof.Machine

/-- `bitlen(v)` of R9. -/
def bitlen (v : Nat) : Nat := if v = 0 then 0 else Nat.log2 v + 1

/-! ### Modular exponentiation (R110, R112) -/

/-- Square-and-multiply from the top bit of e down: the recursion on e / 2 has done the bits above bit 0. -/
def powModFuel (b m : Nat) : Nat → Nat → Nat
  | 0, _ => 1 % m
  | fuel + 1, e =>
      if e = 0 then 1 % m
      else
        let h := powModFuel b m fuel (e / 2)
        if e % 2 = 1 then (h * h % m) * b % m else h * h % m

/-- b^e mod m, with b^0 = 1 for every b (R110). -/
def powMod (b e m : Nat) : Nat := powModFuel b m e e

/-! ### The Bézout recursion (R120) -/

/-- A triple (g, s, t). -/
structure Bezout where
  g : Nat
  s : Int
  t : Int
  deriving DecidableEq, Repr

/-- The recursion of R120 on fuel. -/
def extFuel : Nat → Nat → Nat → Bezout
  | 0, a, _ => { g := a, s := 1, t := 0 }
  | fuel + 1, a, b =>
      if b = 0 then { g := a, s := 1, t := 0 }
      else
        let r := extFuel fuel b (a % b)
        { g := r.g, s := r.t, t := r.s - ((a / b : Nat) : Int) * r.t }

/-- ext(a, b) of R120. The second argument falls at every call, so b + 1 calls are enough. -/
def ext (a b : Nat) : Bezout := extFuel (b + 1) a b

/-! ### Trial division (R140, R141) -/

/-- Is p prime? By every d from 2 up to p - 1. -/
def isPrime (p : Nat) : Bool :=
  decide (2 ≤ p) && (List.range p).all (fun d => decide (d < 2) || p % d != 0)

/-- The small-prime table SP of R140: the primes below TD_LIMIT, in increasing order. -/
def smallPrimes (limit : Nat) : List Nat := (List.range limit).filter isPrime

/-- Is n in SP? -/
def inSmallPrimes (limit n : Nat) : Bool := (smallPrimes limit).contains n

/-- Does some p in SP divide n? -/
def hasSmallFactor (limit n : Nat) : Bool := (smallPrimes limit).any (fun p => n % p == 0)

/-- tdiv(n) of R141. -/
def trialDivision (limit n : Nat) : Bool :=
  if n < 2 then false
  else if inSmallPrimes limit n then true
  else if hasSmallFactor limit n then false
  else true

/-! ### The Miller–Rabin round (R143, R144) -/

/-- The decomposition m = 2^s · d of R143 on fuel: (s, d), d odd where m is not 0 and the fuel is m. -/
def splitTwos : Nat → Nat → Nat × Nat
  | 0, m => (0, m)
  | fuel + 1, m =>
      if m % 2 = 0 then
        let r := splitTwos fuel (m / 2)
        (r.1 + 1, r.2)
      else (0, m)

/-- The squarings of R144: k more of them, looking for n - 1. -/
def millerRabinSquares (n : Nat) : Nat → Nat → Bool
  | 0, _ => false
  | k + 1, x =>
      let y := x * x % n
      if y = n - 1 then true else millerRabinSquares n k y

/-- mr(n, a) of R144. -/
def millerRabin (n a : Nat) : Bool :=
  let sd := splitTwos (n - 1) (n - 1)
  let x := powMod a sd.2 n
  if x = 1 ∨ x = n - 1 then true else millerRabinSquares n (sd.1 - 1) x

end Sys2Proof.Machine
end

