-- ==== Sys2Proof/Machine/Euclid.lean ====
section
/-!
DEFINITION. The extended-GCD unit: XGCD (R121) and MODINV (R124).
-/
namespace Sys2Proof.Machine

/-- The XSGN value of a triple: a sign bit is 1 iff the coefficient is negative (R12, R121). -/
def bezoutSigns (r : Bezout) : Xsgn := { sNeg := decide (r.s < 0), tNeg := decide (r.t < 0) }

/-- execute(XGCD) of R121 on the values read. -/
def xgcdResult (rd rd2 rd3 : RegIdx) (a b : Nat) : CmdResult :=
  let r := ext a b
  .ok [(rd, r.g), (rd2, r.s.natAbs), (rd3, r.t.natAbs)] false (some (bezoutSigns r))

/-- XGCD (R121). -/
def execXgcd (rd rs1 rs2 rd2 rd3 : RegIdx) (s : State) : Host.Outcome State Fault Refusal :=
  .next (s.finish (.xgcd rd rs1 rs2 rd2 rd3) (xgcdResult rd rd2 rd3 (s.operand rs1) (s.operand rs2)))

/-- execute(MODINV) of R124 on the values read; `s mod n` is the floor-mod of R9. -/
def modinvResult (rd : RegIdx) (a n : Nat) : CmdResult :=
  if n = 0 then .err .invalidParam
  else
    let r := ext a n
    if r.g ≠ 1 then .err .noInverse else .ok [(rd, (r.s % (n : Int)).toNat)] false none

/-- MODINV (R124). -/
def execModinv (rd rs1 rs2 : RegIdx) (s : State) : Host.Outcome State Fault Refusal :=
  .next (s.finish (.modinv rd rs1 rs2) (modinvResult rd (s.operand rs1) (s.operand rs2)))

end Sys2Proof.Machine
end

