-- ==== Sys2Proof/Machine/Modular.lean ====
section
/-!
DEFINITION. The modular multiplier and the exponentiation sequencer: MODMUL (R100) and MODEXP (R110).
-/
namespace Sys2Proof.Machine

/-- execute(MODMUL) of R100 on the values read. -/
def modmulResult (rd : RegIdx) (a b m : Nat) : CmdResult :=
  if m = 0 then .err .invalidParam else .ok [(rd, a * b % m)] false none

/-- MODMUL (R100). -/
def execModmul (rd rs1 rs2 rs3 : RegIdx) (s : State) : Host.Outcome State Fault Refusal :=
  .next (s.finish (.modmul rd rs1 rs2 rs3) (modmulResult rd (s.operand rs1) (s.operand rs2) (s.operand rs3)))

/-- execute(MODEXP) of R110 on the values read. -/
def modexpResult (rd : RegIdx) (b e m : Nat) : CmdResult :=
  if m = 0 then .err .invalidParam else .ok [(rd, powMod b e m)] false none

/-- MODEXP (R110). -/
def execModexp (rd rs1 rs2 rs3 : RegIdx) (s : State) : Host.Outcome State Fault Refusal :=
  .next (s.finish (.modexp rd rs1 rs2 rs3) (modexpResult rd (s.operand rs1) (s.operand rs2) (s.operand rs3)))

end Sys2Proof.Machine
end

