-- ==== Sys2Proof/Machine/Primality.lean ====
section
/-!
DEFINITION. The primality-test pipeline: TDIV (R142), MRROUND (R145), the entropy port with its rejection sampling (R147,
R148), and PRIMETEST (R149, R152).
-/
namespace Sys2Proof.Machine

/-- TDIV (R142): RES is tdiv(n); CFG.TD_EN plays no part. -/
def execTdiv (rs1 : RegIdx) (s : State) : Host.Outcome State Fault Refusal :=
  .next (s.finish (.tdiv rs1) (.ok [] (trialDivision s.params.tdLimit (s.operand rs1)) none))

/-- execute(MRROUND) of R145 on the values read. -/
def mrroundResult (n a : Nat) : CmdResult :=
  if n < 5 ∨ n % 2 = 0 ∨ a < 2 ∨ n - 2 < a then .err .invalidParam else .ok [] (millerRabin n a) none

/-- MRROUND (R145). -/
def execMrround (rs1 rs2 : RegIdx) (s : State) : Host.Outcome State Fault Refusal :=
  .next (s.finish (.mrround rs1 rs2) (mrroundResult (s.operand rs1) (s.operand rs2)))

/-! ### The entropy port (R147, R148) -/

/-- One word transfers: the answer lined up first, or a free one (R20, R40). -/
def EntropySource.take (e : EntropySource) : EntropyAnswer × EntropySource :=
  match e.answers with
  | a :: rest => (a, { e with answers := rest })
  | [] => ({ data := Config.entropyWord e.taken, err := Config.entropyErr e.taken }, { e with taken := e.taken + 1 })

/-- The words w_0, w_1, … of one candidate, in order, as Σ_j w_j·2^(32j); none where one carries ent_err. -/
def EntropySource.takeWords : Nat → EntropySource → Option Nat × EntropySource
  | 0, e => (some 0, e)
  | k + 1, e =>
      if e.take.1.err then (none, e.take.2)
      else
        let r := takeWords k e.take.2
        (r.1.map (fun v => e.take.1.data.toNat + 2 ^ 32 * v), r.2)

/-- draw_base(n) of R147 with a number of tries: a base in [2, n - 2], or none for the ENTROPY error. -/
def EntropySource.drawBase (n : Nat) : Nat → EntropySource → Option Nat × EntropySource
  | 0, e => (none, e)
  | tries + 1, e =>
      let c := e.takeWords ((bitlen n + 31) / 32)
      match c.1 with
      | none => (none, c.2)
      | some raw =>
          let v := raw % 2 ^ bitlen n
          if 2 ≤ v ∧ v ≤ n - 2 then (some v, c.2) else drawBase n tries c.2

/-! ### The full test (R149) -/

/-- The Miller–Rabin loop of R149: it stops at the first failing round; none for the ENTROPY error. -/
def primeRounds (tries n : Nat) : Nat → EntropySource → Option Bool × EntropySource
  | 0, e => (some true, e)
  | rounds + 1, e =>
      let d := e.drawBase n tries
      match d.1 with
      | none => (none, d.2)
      | some a => if millerRabin n a then primeRounds tries n rounds d.2 else (some false, d.2)

/-- What primetest(n) of R149 decides before any draw: none where the loop is reached. -/
def primeFilter (p : Params) (cfg : Cfg) (n : Nat) : Option Bool :=
  if n < 2 then some false
  else if n = 2 ∨ n = 3 then some true
  else if n % 2 = 0 then some false
  else if cfg.tdEn && inSmallPrimes p.tdLimit n then some true
  else if cfg.tdEn && hasSmallFactor p.tdLimit n then some false
  else none

/-- primetest(n) of R149 with the entropy source it leaves; none for the ENTROPY error. -/
def primeTest (p : Params) (cfg : Cfg) (n : Nat) (e : EntropySource) : Option Bool × EntropySource :=
  match primeFilter p cfg n with
  | some b => (some b, e)
  | none => primeRounds p.entMaxTries n cfg.mrRounds.toNat e

/-- execute(PRIMETEST) of R152 as a result: ENTROPY raised inside becomes the error (R148). -/
def primetestResult : Option Bool → CmdResult
  | none => .err .entropy
  | some b => .ok [] b none

/-- The entropy words a legal command has taken are consumed, with whatever code it completes (R40). -/
def State.useEntropy (s : State) (i : Instr) (src : EntropySource) : State :=
  if s.legal i then s.setEnv (s.env.setEntropy src) else s

/-- PRIMETEST (R152). -/
def execPrimetest (rs1 : RegIdx) (s : State) : Host.Outcome State Fault Refusal :=
  let d := primeTest s.params s.cfg (s.operand rs1) s.env.entropy
  .next ((s.useEntropy (.primetest rs1) d.2).finish (.primetest rs1) (primetestResult d.1))

end Sys2Proof.Machine
end

