-- ==== Sys2Proof/Machine/Dispatch.lean ====
section
/-!
DEFINITION. The dispatch: one arm per constructor of Instr, each one call of its meaning.
-/
namespace Sys2Proof.Machine

def exec (i : Instr) (s : State) : Host.Outcome State Fault Refusal :=
  match i with
  | .nop => Sys2Proof.Machine.execNop s
  | .modmul rd rs1 rs2 rs3 => Sys2Proof.Machine.execModmul rd rs1 rs2 rs3 s
  | .modexp rd rs1 rs2 rs3 => Sys2Proof.Machine.execModexp rd rs1 rs2 rs3 s
  | .xgcd rd rs1 rs2 rd2 rd3 => Sys2Proof.Machine.execXgcd rd rs1 rs2 rd2 rd3 s
  | .modinv rd rs1 rs2 => Sys2Proof.Machine.execModinv rd rs1 rs2 s
  | .tdiv rs1 => Sys2Proof.Machine.execTdiv rs1 s
  | .mrround rs1 rs2 => Sys2Proof.Machine.execMrround rs1 rs2 s
  | .primetest rs1 => Sys2Proof.Machine.execPrimetest rs1 s

end Sys2Proof.Machine
end

