-- ==== Sys2Proof/Machine/Engine.lean ====
section
/-!
DEFINITION. The engine agent's one step, complete (R86), and who moves next, weakly fair to the engine (R14, R15, R193).
-/
namespace Sys2Proof.Machine

/-- The command the engine has latched: CMD, decoded by R82 (R39). -/
def State.fetch (s : State) : Except DecodeError Instr := decode s.cmd

/-- complete() of R86: a word that checks 1 and 2 of R88 refuse ends with ILLEGAL, any other runs its command. -/
def engineStep (s : State) : Host.Outcome State Fault Refusal :=
  match s.fetch with
  | .ok i => exec i s
  | .error _ => .next (s.commit (.err .illegal))

/-- Whose turn it is where both the host and the engine can move: the host's until the running command's latency is used
up, then the engine's, so that completion is never put off for ever (R15, R86). -/
def State.takeTurn (s : State) : Agent × State :=
  match s.env.hold with
  | 0 => (.engine, s)
  | k + 1 => (.host, s.setEnv (s.env.setHold k))

/-- Who moves next. The engine can move iff BUSY = 1 (R86), the host iff it has an operation left. -/
def State.schedule (s : State) : Agent × State :=
  match s.status.busy, s.env.host with
  | false, _ => (.host, s)
  | true, [] => (.engine, s)
  | true, _ :: _ => s.takeTurn

/-- One step of the agent that moves. -/
def agentStep (a : Agent) (s : State) : Host.Outcome State Fault Refusal :=
  match a with
  | .host => hostStep s
  | .engine => engineStep s

/-- s with w latched as the running command and the engine to move next: the host's CMD write of w accepted (R84), with
latency 0. -/
def State.withCommand (s : State) (w : Word) : State :=
  (s.issue w).setEnv ((s.issue w).env.setHold 0)

end Sys2Proof.Machine
end

