-- ==== Sys2Proof/Machine/Step.lean ====
section
/-!
DEFINITION. One step of the machine: the agent that moves takes its step (R14, R15).
-/
namespace Sys2Proof.Machine

/-- One step. -/
def step (s : State) : Host.Outcome State Fault Refusal :=
  agentStep s.schedule.1 s.schedule.2

/-- s with the command word w issued, so that the next step of the machine runs exactly it. Bits of w at nbits and above
are 0. It stands for the host's CMD write (R84); log entry 8. -/
def State.withFetchWord (s : State) (nbits w : Nat) : State :=
  s.withCommand (BitVec.ofNat 32 (w % 2 ^ nbits))

end Sys2Proof.Machine
end

