-- ==== Sys2Proof/Machine/HostProgram.lean ====
section
/-!
DEFINITION. The host's side in writing: the host-program operations of R94 as lists of bus accesses, the pseudo-
instructions of R93, and the assembler syntax of R92. Nothing here changes what the block does.
-/
namespace Sys2Proof.Machine

/-! ### Host-program operations (R94) -/

/-- WRX xi, v: NBITS/32 word writes in increasing j. -/
def wrx (p : Params) (i v : Nat) : List HostOp :=
  (List.range p.words).map fun j =>
    .write (BitVec.ofNat 13 (xaddr p i j)) .four (BitVec.ofNat 32 (v / 2 ^ (32 * j)))

/-- RDX xi: NBITS/32 word reads in increasing j. -/
def rdx (p : Params) (i : Nat) : List HostOp :=
  (List.range p.words).map fun j => .read (BitVec.ofNat 13 (xaddr p i j)) .four

/-- A command mnemonic on a host line: MemWrite(0x01C, 4, word), the issue. -/
def issueOp (i : Instr) : HostOp := .write 0x01C .four (encode i)

/-- CLRDONE: MemWrite(0x014, 4, 0x2). -/
def clrDone : HostOp := .write 0x014 .four 0x2

/-! ### Pseudo-instructions (R93): each is exactly one command -/

/-- MODSQR xd, xa, xm: a² mod m. -/
def modsqr (xd xa xm : RegIdx) : Instr := .modmul xd xa xa xm

/-- MODRED xd, xa, xone, xm: a mod m, where X[xone] = 1. -/
def modred (xd xa xone xm : RegIdx) : Instr := .modmul xd xa xone xm

/-! ### Assembler syntax (R92) -/

/-- The mnemonics, the two pseudo-instructions among them. -/
inductive AsmOp where
  | command (c : Opcode)
  | modsqr
  | modred
  deriving DecidableEq, Repr

/-- A mnemonic in capitals. -/
def asmOpOf (cs : List Char) : Option AsmOp :=
  if cs = ['N', 'O', 'P'] then some (.command .nop)
  else if cs = ['M', 'O', 'D', 'M', 'U', 'L'] then some (.command .modmul)
  else if cs = ['M', 'O', 'D', 'E', 'X', 'P'] then some (.command .modexp)
  else if cs = ['X', 'G', 'C', 'D'] then some (.command .xgcd)
  else if cs = ['M', 'O', 'D', 'I', 'N', 'V'] then some (.command .modinv)
  else if cs = ['T', 'D', 'I', 'V'] then some (.command .tdiv)
  else if cs = ['M', 'R', 'R', 'O', 'U', 'N', 'D'] then some (.command .mrround)
  else if cs = ['P', 'R', 'I', 'M', 'E', 'T', 'E', 'S', 'T'] then some (.command .primetest)
  else if cs = ['M', 'O', 'D', 'S', 'Q', 'R'] then some .modsqr
  else if cs = ['M', 'O', 'D', 'R', 'E', 'D'] then some .modred
  else none

/-- The command of a mnemonic and its operands: destinations first, then sources in EMM's argument order. -/
def asmInstr : AsmOp → List RegIdx → Option Instr
  | .command .nop, [] => some .nop
  | .command .modmul, [xd, xa, xb, xm] => some (.modmul xd xa xb xm)
  | .command .modexp, [xd, xbase, xexp, xmod] => some (.modexp xd xbase xexp xmod)
  | .command .xgcd, [xg, xs, xt, xa, xb] => some (.xgcd xg xa xb xs xt)
  | .command .modinv, [xd, xa, xn] => some (.modinv xd xa xn)
  | .command .tdiv, [xn] => some (.tdiv xn)
  | .command .mrround, [xn, xbase] => some (.mrround xn xbase)
  | .command .primetest, [xn] => some (.primetest xn)
  | .modsqr, [xd, xa, xm] => some (modsqr xd xa xm)
  | .modred, [xd, xa, xone, xm] => some (modred xd xa xone xm)
  | _, _ => none

/-- The name of a register: x0 to x15. -/
def regName (k : Nat) : List Char :=
  if k < 10 then ['x', Char.ofNat (48 + k)] else ['x', '1', Char.ofNat (38 + k)]

/-- A register operand; one at NREG or above is an assembly error. -/
def asmReg (nreg : Nat) (cs : List Char) : Option RegIdx :=
  ((List.range 16).find? fun k => decide (k < nreg) && regName k == cs).map (BitVec.ofNat 4)

/-- Spaces off both ends. -/
def trimBlanks (cs : List Char) : List Char :=
  ((cs.dropWhile (· == ' ')).reverse.dropWhile (· == ' ')).reverse

/-- The operands of a line: separated by commas; a line without them has none. -/
def asmOperands (nreg : Nat) (cs : List Char) : Option (List RegIdx) :=
  if trimBlanks cs = [] then some [] else (cs.splitOn ',').mapM fun o => asmReg nreg (trimBlanks o)

/-- One assembler line: a comment from `;` on is dropped, mnemonics are case-insensitive. -/
def assemble (nreg : Nat) (line : List Char) : Option Instr :=
  let code := trimBlanks (line.takeWhile (· != ';'))
  match asmOpOf ((code.takeWhile (· != ' ')).map Char.toUpper), asmOperands nreg (code.dropWhile (· != ' ')) with
  | some op, some rs => asmInstr op rs
  | _, _ => none

end Sys2Proof.Machine
end

