-- ==== Sys2Proof/Safety.lean ====
section
/-!
DEFINITION. What claims are stated in: the invariant of the machine, the safe runs of R25, and the vocabulary of frames.
-/
namespace Sys2Proof.Machine

/-! ### The invariant -/

/-- The operand file in its one canonical form: NREG registers (R22), each of NBITS/32 words (R23), and a word that
nothing has defined stores the reset value, so that equal files are equal data. -/
def State.fileWf (s : State) : Bool :=
  s.x.length == s.params.nreg
    && s.x.all (fun r => r.length == s.params.words && r.all (fun w => w.written || w.val == OpWord.atReset.val))

/-- STATUS bits that cannot stand together: while BUSY = 1, DONE, ERRCODE and RES are 0 (R32, R84), and an error leaves
RES 0 (R37). -/
def Status.wf (t : Status) : Bool :=
  (!t.busy || (!t.done && t.errcode == .ok && !t.res)) && (t.errcode == .ok || !t.res)

/-- The invariant: legal build parameters (R7), the operand file's form, CFG.MR_ROUNDS in 1..255 (R33), and STATUS. -/
def State.inv (s : State) : Bool :=
  s.params.legal && s.fileWf && s.cfg.mrRounds != 0 && s.status.wf

/-- A safe state in the sense of R25: no command has read a register with an undefined word. Where R25 stops the model
with UNWRITTEN_OPERAND, this model goes on with free values and records the event (log entry 1). -/
def State.safe (s : State) : Bool := !s.env.unwritten

/-! ### Frames -/

/-- Every word of every operand register outside ds, value and defined bit, is as before. -/
def SameRegsBut (ds : List RegIdx) (s t : State) : Prop :=
  ∀ i : Nat, (∀ d ∈ ds, d.toNat ≠ i) → t.reg i = s.reg i

/-- The control registers no command writes are as before: the build parameters behind ID, PARAM and PARAM2, CTRL, CFG
and CMD. -/
def SameControl (s t : State) : Prop :=
  t.params = s.params ∧ t.ie = s.ie ∧ t.cfg = s.cfg ∧ t.cmd = s.cmd

/-- Completion with a code and a Boolean result (R86): OVR and ACCERR are as before. -/
def CompletedWith (code : ErrCode) (res : Bool) (s t : State) : Prop :=
  t.status = { busy := false, done := true, res := res, ovr := s.status.ovr, accerr := s.status.accerr, errcode := code }

/-- The other agents are as before, and bus_rdata. -/
def SameAgents (s t : State) : Prop :=
  t.env.host = s.env.host ∧ t.env.hold = s.env.hold ∧ t.env.issues = s.env.issues
    ∧ t.env.rdata = s.env.rdata

/-- A command has ended well with a Boolean result: the registers ds alone may differ, and XSGN is the caller's. -/
def SucceededWith (ds : List RegIdx) (res : Bool) (s t : State) : Prop :=
  CompletedWith .ok res s t ∧ SameRegsBut ds s t ∧ SameControl s t ∧ SameAgents s t

/-- A command has ended with an error and has committed nothing (R87). -/
def FailedWith (code : ErrCode) (s t : State) : Prop :=
  CompletedWith code false s t ∧ t.x = s.x ∧ t.xsgn = s.xsgn ∧ SameControl s t ∧ SameAgents s t

/-- `Draws n tries e bases f`: from the source e, draw_base(n) of R147 gives the bases one after another and leaves the
source f. -/
def Draws (n tries : Nat) : EntropySource → List Nat → EntropySource → Prop
  | e, [], f => f = e
  | e, a :: as, f => (e.drawBase n tries).1 = some a ∧ Draws n tries (e.drawBase n tries).2 as f

/-- A register index in use is legal on this block (R88 check 3). -/
abbrev State.hasReg (s : State) (r : RegIdx) : Prop := r.toNat < s.params.nreg

/-! ### The columns of R82 -/

/-- The fields R82 marks used as a register index for the opcode of w. -/
def usedFields (w : Word) : List RegIdx :=
  match (fieldOpc w).toNat with
  | 1 => [fieldRd w, fieldRs1 w, fieldRs2 w, fieldRs3 w]
  | 2 => [fieldRd w, fieldRs1 w, fieldRs2 w, fieldRs3 w]
  | 3 => [fieldRd w, fieldRs1 w, fieldRs2 w, fieldRd2 w, fieldRd3 w]
  | 4 => [fieldRd w, fieldRs1 w, fieldRs2 w]
  | 5 => [fieldRs1 w]
  | 6 => [fieldRs1 w, fieldRs2 w]
  | 7 => [fieldRs1 w]
  | _ => []

/-- The fields R82 marks unused for the opcode of w. -/
def unusedFields (w : Word) : List RegIdx :=
  match (fieldOpc w).toNat with
  | 0 => [fieldRd w, fieldRs1 w, fieldRs2 w, fieldRs3 w, fieldRd2 w, fieldRd3 w]
  | 1 => [fieldRd2 w, fieldRd3 w]
  | 2 => [fieldRd2 w, fieldRd3 w]
  | 3 => [fieldRs3 w]
  | 4 => [fieldRs3 w, fieldRd2 w, fieldRd3 w]
  | 5 => [fieldRd w, fieldRs2 w, fieldRs3 w, fieldRd2 w, fieldRd3 w]
  | 6 => [fieldRd w, fieldRs3 w, fieldRd2 w, fieldRd3 w]
  | 7 => [fieldRd w, fieldRs2 w, fieldRs3 w, fieldRd2 w, fieldRd3 w]
  | _ => []

/-- The reserved offsets of R64: 0x00C, 0x024 to 0xFFC, and those above the operand window. -/
abbrev reservedOffset (p : Params) (a : Offset) : Prop :=
  a = 0x00C ∨ (0x024 ≤ a.toNat ∧ a.toNat < 0x1000) ∨ xaddr p p.nreg 0 ≤ a.toNat

end Sys2Proof.Machine
end

