-- ==== Sys2Proof/Certificates/Slice0/Obligations.lean ====
section
/-!
DEFINITION. The statements for the provers. `s.inv` is the invariant of Safety.lean; `StepKeepsInv` and `ResetHasInv` say
that it holds where a run can reach. A hypothesis `s.hasReg r` says that r is below NREG.
-/

open Sys2Proof Sys2Proof.Machine

/-! ### Encoding and decoding -/

/-- R92, R93 and the vectors of 95: the words the spec writes out decode to the commands it gives for them, and the
assembler's examples give those words. -/
def Obligations.SpecWordsDecode : Prop :=
  decode 0x00000000 = .ok .nop ∧ decode 0x01301200 = .ok (.modmul 3 0 1 2)
    ∧ decode 0x02301200 = .ok (.modexp 3 0 1 2) ∧ decode 0x03201034 = .ok (.xgcd 2 0 1 3 4)
    ∧ decode 0x04201000 = .ok (.modinv 2 0 1) ∧ decode 0x05010000 = .ok (.tdiv 1)
    ∧ decode 0x06001000 = .ok (.mrround 0 1) ∧ decode 0x07060000 = .ok (.primetest 6)
    ∧ decode 0x01544200 = .ok (modsqr 5 4 2) ∧ decode 0x01774100 = .ok (modred 7 7 4 1)
    ∧ asmInstr (.command .xgcd) [2, 3, 4, 0, 1] = some (.xgcd 2 0 1 3 4)

/-- The decoder reads back every command the encoder writes, with every field at every value. -/
def Obligations.DecodeOfEncode : Prop :=
  ∀ i : Instr, decode (encode i) = .ok i

/-- A word has at most one meaning: the encoder writes back every word the decoder accepts. -/
def Obligations.EncodeOfDecode : Prop :=
  ∀ (w : Word) (i : Instr), decode w = .ok i → encode i = w

/-- R82: the table's rows; a word encodes a command iff its masked bits are the row's match; rows do not overlap. -/
def Obligations.OpcodeTableSelectsCommand : Prop :=
  Opcode.all.map (fun c => (c.number, c.pattern, c.mask)) =
      [(0x00, 0x00000000, 0xFFFFFFFF), (0x01, 0x01000000, 0xFF0000FF), (0x02, 0x02000000, 0xFF0000FF),
       (0x03, 0x03000000, 0xFF000F00), (0x04, 0x04000000, 0xFF000FFF), (0x05, 0x05000000, 0xFFF0FFFF),
       (0x06, 0x06000000, 0xFFF00FFF), (0x07, 0x07000000, 0xFFF0FFFF)]
    ∧ (∀ (c : Opcode) (w : Word), w &&& c.mask = c.pattern ↔ decode w = .ok (c.build w))
    ∧ (∀ (c : Opcode) (w : Word), (∃ i, decode w = .ok i ∧ opcodeOfInstr i = c) ↔ w &&& c.mask = c.pattern)
    ∧ (∀ (c d : Opcode) (w : Word), w &&& c.mask = c.pattern → w &&& d.mask = d.pattern → c = d)
    ∧ (∀ w : Word,
        Opcode.nop.build w = .nop
        ∧ Opcode.modmul.build w = .modmul (fieldRd w) (fieldRs1 w) (fieldRs2 w) (fieldRs3 w)
        ∧ Opcode.modexp.build w = .modexp (fieldRd w) (fieldRs1 w) (fieldRs2 w) (fieldRs3 w)
        ∧ Opcode.xgcd.build w = .xgcd (fieldRd w) (fieldRs1 w) (fieldRs2 w) (fieldRd2 w) (fieldRd3 w)
        ∧ Opcode.modinv.build w = .modinv (fieldRd w) (fieldRs1 w) (fieldRs2 w)
        ∧ Opcode.tdiv.build w = .tdiv (fieldRs1 w)
        ∧ Opcode.mrround.build w = .mrround (fieldRs1 w) (fieldRs2 w)
        ∧ Opcode.primetest.build w = .primetest (fieldRs1 w))

/-- R88: decode_check answers Ok exactly where none of its four checks holds. -/
def Obligations.DecodeCheckVerdict : Prop :=
  ∀ (nreg : Nat) (w : Word),
    (∃ i, decodeCheck nreg w = .ok i) ↔
      ¬ (0x07 < (fieldOpc w).toNat
        ∨ (∃ f ∈ unusedFields w, f ≠ 0)
        ∨ (∃ f ∈ usedFields w, nreg ≤ f.toNat)
        ∨ (fieldOpc w = 0x03 ∧ (fieldRd w = fieldRd2 w ∨ fieldRd w = fieldRd3 w ∨ fieldRd2 w = fieldRd3 w)))

/-- R90: a reserved opcode, or a legal opcode with a nonzero unused field, completes with ILLEGAL and changes nothing else;
the only no-op is the word 0. -/
def Obligations.ReservedEncodingsAreIllegal : Prop :=
  (∀ s : State, (0x07 < (fieldOpc s.cmd).toNat ∨ ∃ f ∈ unusedFields s.cmd, f ≠ 0) →
    engineStep s = .next { s with status := { busy := false, done := true, res := false, ovr := s.status.ovr,
                                              accerr := s.status.accerr, errcode := .illegal } })
  ∧ ∀ w : Word, decode w = .ok .nop ↔ w = 0x00000000

/-- R182: ILLEGAL is raised only by decode_check, and it is the only error a reserved opcode can give. -/
def Obligations.IllegalIffDecodeCheckFails : Prop :=
  (∀ s t : State, engineStep s = .next t →
    (t.status.errcode = .illegal ↔ ∃ e, decodeCheck s.params.nreg s.cmd = .error e))
  ∧ ∀ s t : State, engineStep s = .next t → 0x07 < (fieldOpc s.cmd).toNat → t.status.errcode = .illegal

/-! ### Steps, issue and the bus -/

/-- R14, R15, R86: a step in which the engine moves is exec of the decoded command, with nothing around it. The engine moves
where no host access is pending, or the command's latency is used up; else the host moves, and uses up one of it. -/
def Obligations.StepRunsDecodedCommand : Prop :=
  ∀ (s : State) (i : Instr), s.status.busy = true → decode s.cmd = .ok i →
    (s.env.host = [] ∨ s.env.hold = 0 → step s = exec i s)
    ∧ ∀ k, s.env.host ≠ [] → s.env.hold = k + 1 → step s = hostStep { s with env := { s.env with hold := k } }

/-- A command word that the host's write has issued is what the next step runs, exactly (the model's convention of log
entry 8). -/
def Obligations.IssuedWordRunsNext : Prop :=
  ∀ (s : State) (i : Instr),
    step (s.withFetchWord 32 (encode i).toNat) = exec i (s.withFetchWord 32 (encode i).toNat)
    ∧ s.withFetchWord 32 (encode i).toNat =
        { s.issue (encode i) with env := { (s.issue (encode i)).env with hold := 0 } }

/-- R84: what an issue does, whatever the word; outside the block only the model's record of the latency may differ, in any
way. And R34: CMD reads as the word of the last accepted command in every state. -/
def Obligations.IssueEffect : Prop :=
  (∀ (s : State) (w : Word), s.status.busy = false →
    (∃ hold issues, s.busWrite 0x01C w =
      { s with cmd := w, status := { s.status with busy := true, done := false, errcode := .ok, res := false }
               env := { s.env with hold := hold, issues := issues } })
    ∧ (s.busWrite 0x01C w).status.err = false
    ∧ (s.busWrite 0x01C w).busRead 0x01C = w)
  ∧ ∀ s : State, s.busRead 0x01C = s.cmd

/-- R85: a CMD write while BUSY = 1 changes nothing but STATUS.OVR. -/
def Obligations.CmdWriteWhileBusyIsDropped : Prop :=
  ∀ (s : State) (w : Word), s.status.busy = true →
    s.busWrite 0x01C w = { s with status := { s.status with ovr := true } }

/-- R32: the STATUS write, whatever BUSY is. -/
def Obligations.StatusWriteClearsOnes : Prop :=
  (∀ (s : State) (v : Word),
    s.busWrite 0x014 v =
      { s with status := { s.status with
          done := if v.getLsbD 1 then false else s.status.done
          ovr := if v.getLsbD 4 then false else s.status.ovr
          accerr := if v.getLsbD 5 then false else s.status.accerr } })
  ∧ ∀ s : State, s.inv = true → s.status.busy = true → s.status.done = false

/-- R31, R181: the fields of a STATUS read. -/
def Obligations.StatusReadLayout : Prop :=
  ∀ s : State,
    (s.busRead 0x014).getLsbD 0 = s.status.busy
    ∧ (s.busRead 0x014).getLsbD 1 = s.status.done
    ∧ ((s.busRead 0x014).getLsbD 2 = true ↔ s.status.errcode ≠ .ok)
    ∧ (s.busRead 0x014).getLsbD 3 = s.status.res
    ∧ (s.busRead 0x014).getLsbD 4 = s.status.ovr
    ∧ (s.busRead 0x014).getLsbD 5 = s.status.accerr
    ∧ (s.busRead 0x014).extractLsb' 6 2 = 0
    ∧ ((s.busRead 0x014).extractLsb' 8 4).toNat = s.status.errcode.number
    ∧ (s.busRead 0x014).extractLsb' 12 20 = 0
    ∧ [ErrCode.ok, .illegal, .invalidParam, .noInverse, .entropy, .aborted].map ErrCode.number = [0, 1, 2, 3, 4, 5]

/-- R30, R186: the CTRL write without SRST: IE, and ABORT while BUSY = 1; and the CTRL read. Which entropy words an aborted
command has taken is left open here, as the rules leave it (log entry 15). -/
def Obligations.CtrlWriteAborts : Prop :=
  ∀ (s : State) (v : Word),
    (v.getLsbD 2 = false → v.getLsbD 1 = true → s.status.busy = true →
      ∃ src, s.busWrite 0x010 v =
        { s with ie := v.getLsbD 0
                 status := { busy := false, done := true, res := false, ovr := s.status.ovr,
                             accerr := s.status.accerr, errcode := .aborted }
                 env := { s.env with entropy := src } })
    ∧ (v.getLsbD 2 = false → (v.getLsbD 1 = false ∨ s.status.busy = false) →
      s.busWrite 0x010 v = { s with ie := v.getLsbD 0 })
    ∧ (v.getLsbD 2 = true → s.busWrite 0x010 v = s.resetBlock)
    ∧ s.busRead 0x010 = (if s.ie then 1 else 0)

/-- R211, R212: a CTRL write with SRST = 1, whatever its other bits and whatever BUSY is, is a reset; so is rst_n. -/
def Obligations.ResetPutsEveryValue : Prop :=
  ∀ (s : State) (v : Word) (rest : List HostOp), v.getLsbD 2 = true →
    s.busWrite 0x010 v = s.resetBlock
    ∧ hostOp s rest .hardReset = .next (s.setEnv { s.env with host := rest }).resetBlock
    ∧ s.resetBlock.ie = false
    ∧ s.resetBlock.busRead 0x014 = 0
    ∧ s.resetBlock.status.busy = false ∧ s.resetBlock.status.done = false
    ∧ (s.resetBlock.busRead 0x018).extractLsb' 0 8 = s.params.mrRoundsReset
    ∧ (s.resetBlock.busRead 0x018).extractLsb' 8 24 = 1
    ∧ (s.params.mrRoundsReset = 40 → s.resetBlock.busRead 0x018 = 0x00000128)
    ∧ s.resetBlock.cmd = 0
    ∧ s.resetBlock.busRead 0x020 = 0
    ∧ s.resetBlock.irq = false
    ∧ s.resetBlock.params = s.params
    ∧ ∀ i j, (s.resetBlock.word i j).written = false

/-- R41: the state right after reset, as reads give it; every operand word is undefined. -/
def Obligations.ResetStateValues : Prop :=
  State.reset.busRead 0x000 = 0x4D450001 ∧ State.reset.busRead 0x004 = 0x00080800
    ∧ State.reset.busRead 0x008 = 0x00400100 ∧ State.reset.busRead 0x010 = 0
    ∧ State.reset.busRead 0x014 = 0 ∧ State.reset.busRead 0x018 = 0x00000128
    ∧ State.reset.busRead 0x01C = 0 ∧ State.reset.busRead 0x020 = 0 ∧ State.reset.irq = false
    ∧ State.reset.x.length = 8 ∧ (∀ r ∈ State.reset.x, r.length = 64 ∧ ∀ w ∈ r, w.written = false)

/-- R33: the CFG register: its reset value, its read, and its write while idle and while busy. -/
def Obligations.CfgWrite : Prop :=
  State.reset.busRead 0x018 = 0x00000128
  ∧ (∀ s : State, ((s.busRead 0x018).extractLsb' 0 8) = s.cfg.mrRounds ∧ (s.busRead 0x018).getLsbD 8 = s.cfg.tdEn
      ∧ (s.busRead 0x018).extractLsb' 9 23 = 0)
  ∧ (∀ (s : State) (v : Word), s.status.busy = false →
      s.busWrite 0x018 v =
        { s with cfg := { mrRounds := if v.extractLsb' 0 8 = 0 then s.cfg.mrRounds else v.extractLsb' 0 8
                          tdEn := v.getLsbD 8 } })
  ∧ ∀ (s : State) (v : Word), s.status.busy = true →
      s.busWrite 0x018 v = { s with status := { s.status with accerr := true } }

/-- R7, R27, R28, R29: the identity registers report the build parameters, in the reference configuration as the values
given, and no step changes a build parameter. -/
def Obligations.IdentityRegistersAreConstant : Prop :=
  (∀ s : State, s.busRead 0x000 = 0x4D450001)
  ∧ (∀ s : State, s.params.legal = true →
      ((s.busRead 0x004).extractLsb' 0 16).toNat = s.params.nbits
      ∧ ((s.busRead 0x004).extractLsb' 16 8).toNat = s.params.nreg
      ∧ (s.busRead 0x004).extractLsb' 24 8 = 0
      ∧ ((s.busRead 0x008).extractLsb' 0 16).toNat = s.params.tdLimit % 65536
      ∧ ((s.busRead 0x008).extractLsb' 16 16).toNat = s.params.entMaxTries)
  ∧ (∀ s : State, s.params = Params.reference →
      s.busRead 0x004 = 0x00080800 ∧ s.busRead 0x008 = 0x00400100)
  ∧ ∀ s t : State, step s = .next t → t.params = s.params ∧ t.busRead 0x000 = s.busRead 0x000
      ∧ t.busRead 0x004 = s.busRead 0x004 ∧ t.busRead 0x008 = s.busRead 0x008

/-- R36, R65: a reserved offset reads 0 and ignores writes without a bus error; so do reserved bits and RO registers. -/
def Obligations.ReservedSpaceReadsZero : Prop :=
  (∀ (s : State) (a : Offset) (v : Word), s.params.legal = true → a.extractLsb' 0 2 = 0 → reservedOffset s.params a →
    s.busRead a = 0 ∧ s.busWrite a v = s
    ∧ ∀ rest, hostOp s rest (.write a .four v) = .next { s with env := { s.env with host := rest } }
      ∧ hostOp s rest (.read a .four) = .next { s with env := { s.env with host := rest, rdata := 0 } })
  ∧ (∀ (s : State) (v : Word), s.busWrite 0x000 v = s ∧ s.busWrite 0x004 v = s ∧ s.busWrite 0x008 v = s
      ∧ s.busWrite 0x020 v = s)
  ∧ (∀ s : State, s.busRead 0x004 &&& 0xFF000000 = 0 ∧ s.busRead 0x010 &&& 0xFFFFFFFE = 0
      ∧ s.busRead 0x014 &&& 0xFFFFF0C0 = 0 ∧ s.busRead 0x018 &&& 0xFFFFFE00 = 0 ∧ s.busRead 0x020 &&& 0xFFFFFFFC = 0)
  ∧ ∀ (s : State) (v : Word), s.busWrite 0x010 v = s.busWrite 0x010 (v &&& 0x00000007)
      ∧ s.busWrite 0x014 v = s.busWrite 0x014 (v &&& 0x00000032)
      ∧ s.busWrite 0x018 v = s.busWrite 0x018 (v &&& 0x000001FF)

/-- R63: the operand window: XADDR(i, j) names word j of X[i] inside 0x1000 to 0x1FFF, what lies above is reserved, and the
reference configuration's addresses. -/
def Obligations.OperandWindow : Prop :=
  (∀ (p : Params) (i j : Nat), xaddr p i j = 0x1000 + i * (p.nbits / 8) + 4 * j)
  ∧ (∀ (p : Params) (i j : Nat), p.legal = true → i < p.nreg → j < p.nbits / 32 →
      xaddr p i j < 0x2000 ∧ target p (BitVec.ofNat 13 (xaddr p i j)) = .operand i j)
  ∧ (∀ (p : Params) (a : Offset), p.legal = true → 0x1000 + p.nreg * p.nbits / 8 ≤ a.toNat → target p a = .reserved)
  ∧ (∀ i j : Nat, xaddr Params.reference i j = 0x1000 + 0x100 * i + 4 * j)
  ∧ xaddr Params.reference 7 63 + 3 = 0x17FF

/-- R23: a register is the sum of its words, word j weighing 2^(32j), and a command's write sets every word of it. -/
def Obligations.RegisterIsSumOfWords : Prop :=
  (∀ (s : State) (r : RegIdx), s.inv = true → s.hasReg r → s.operandDefined r = true →
    s.operand r = ∑ j ∈ Finset.range (s.params.nbits / 32), (s.word r.toNat j).val.toNat * 2 ^ (32 * j))
  ∧ ∀ (s : State) (r : RegIdx) (v j : Nat), s.inv = true → s.hasReg r → v < 2 ^ s.params.nbits → j < s.params.nbits / 32 →
    (s.writeReg r v).word r.toNat j = { val := BitVec.ofNat 32 (v / 2 ^ (32 * j)), written := true }
    ∧ (s.writeReg r v).operand r = v

/-- R67: an operand word written while idle is that word, and no other word and nothing else changes; a read gives the word
back, and a read of an undefined word gives a value nothing constrains. -/
def Obligations.IdleOperandAccess : Prop :=
  (∀ (s : State) (i j : Nat) (v : Word), s.inv = true → s.status.busy = false → i < s.params.nreg → j < s.params.nbits / 32 →
    ∃ t, s.busWrite (BitVec.ofNat 13 (xaddr s.params i j)) v = t
      ∧ t.word i j = { val := v, written := true }
      ∧ (∀ k l, (k ≠ i ∨ l ≠ j) → t.word k l = s.word k l)
      ∧ t = { s with x := t.x }
      ∧ t.busRead (BitVec.ofNat 13 (xaddr s.params i j)) = v)
  ∧ ∀ (s : State) (i j : Nat), s.inv = true → s.status.busy = false → i < s.params.nreg → j < s.params.nbits / 32 →
    s.busRead (BitVec.ofNat 13 (xaddr s.params i j)) =
      (if (s.word i j).written then (s.word i j).val else Config.ramWord s.env.ramDraws i j)

/-- R68: the host's accesses while BUSY = 1, case by case. -/
def Obligations.BusyAccesses : Prop :=
  ∀ s : State, s.inv = true → s.status.busy = true →
    (∀ (i j : Nat) (v : Word), i < s.params.nreg → j < s.params.nbits / 32 →
      s.busWrite (BitVec.ofNat 13 (xaddr s.params i j)) v = { s with status := { s.status with accerr := true } }
      ∧ s.busRead (BitVec.ofNat 13 (xaddr s.params i j)) = Config.ramWord s.env.ramDraws i j)
    ∧ (∀ v : Word, s.busWrite 0x018 v = { s with status := { s.status with accerr := true } }
      ∧ s.busWrite 0x01C v = { s with status := { s.status with ovr := true } })
    ∧ (s.busRead 0x000 = idWord ∧ s.busRead 0x004 = paramWord s.params ∧ s.busRead 0x008 = param2Word s.params
      ∧ s.busRead 0x010 = ctrlWord s.ie ∧ s.busRead 0x014 = s.status.toWord ∧ s.busRead 0x018 = s.cfg.toWord
      ∧ s.busRead 0x01C = s.cmd ∧ s.busRead 0x020 = s.xsgn.toWord)
    ∧ (∀ (a : Offset) (v : Word), (a ≠ 0x010 ∨ v.getLsbD 2 = false) →
      (s.busWrite a v).x = s.x ∧ (s.busWrite a v).xsgn = s.xsgn)
    ∧ (∀ v : Word, s.busWrite 0x014 v = s.writeStatus v ∧ s.busWrite 0x010 v = s.writeCtrl v)
    ∧ ∀ (a : Offset) (v : Word) (rest : List HostOp), a.toNat % 4 = 0 →
      (∃ t, hostOp s rest (.write a .four v) = .next t) ∧ ∃ t, hostOp s rest (.read a .four) = .next t

/-- While a command runs, a host step that leaves it running changes no operand word, not CFG, not CMD and not XSGN: the
operands at completion are those at issue (R39, R68, R74). -/
def Obligations.HostCannotDisturbRunningCommand : Prop :=
  ∀ s t : State, s.status.busy = true → hostStep s = .next t → t.status.busy = true →
    t.x = s.x ∧ t.cfg = s.cfg ∧ t.cmd = s.cmd ∧ t.xsgn = s.xsgn ∧ t.params = s.params

/-- R66: a read changes nothing in the block; the model records the answer and counts a draw. -/
def Obligations.ReadsHaveNoSideEffect : Prop :=
  ∀ (s : State) (a : Offset), ∃ n, s.answerRead a = { s with env := { s.env with rdata := s.busRead a, ramDraws := n } }

/-- R61, R187: an access that is not 32 bits wide and aligned stops the model as a host fault, and no other access does. -/
def Obligations.BusErrorExactlyOnIllegalAccess : Prop :=
  (∀ (s : State) (a : Offset) (z : AccessSize) (v : Word) (rest : List HostOp), (z ≠ .four ∨ a.toNat % 4 ≠ 0) →
    hostOp s rest (.read a z) = .fault .busError ∧ hostOp s rest (.write a z v) = .fault .busError)
  ∧ ∀ (s : State) (op : HostOp) (rest : List HostOp),
      (∀ a z, op = .read a z → z = .four ∧ a.toNat % 4 = 0) →
      (∀ a z v, op = .write a z v → z = .four ∧ a.toNat % 4 = 0) → ∃ t, hostOp s rest op = .next t

/-- R70: host accesses take effect in the order the host issues them: where the host moves (BUSY = 0, or BUSY = 1 and the turn
is the host's), the oldest one has its effect and the rest stay. `u` is s with the turn taken. -/
def Obligations.HostAccessesInOrder : Prop :=
  ∀ (s u : State) (a : Offset) (v : Word) (rest : List HostOp), a.toNat % 4 = 0 →
    (s.status.busy = false ∧ u = s ∨ s.status.busy = true ∧ s.takeTurn = (.host, u)) →
    (s.env.host = .write a .four v :: rest →
      step s = .next (({ u with env := { u.env with host := rest } } : State).busWrite a v))
    ∧ (s.env.host = .read a .four :: rest →
      step s = .next (({ u with env := { u.env with host := rest } } : State).answerRead a))

/-! ### Rules of every command and of the whole machine -/

/-- R86, R24: every command completes: BUSY falls, DONE rises, OVR and ACCERR, the control registers and the other agents are
as before; the entropy source is untouched but for PRIMETEST; and a legal command that reads an undefined word leaves the
record of R25 (a record, not a stop: log entry 1). R15, R220, R222: and the completion is taken: every step while BUSY = 1
ends the command or uses up latency, so the command is over within its latency and one step, unless the host stops the model
by a bus fault. -/
def Obligations.EveryCommandCompletes : Prop :=
  (∀ (i : Instr) (s : State), ∃ t, exec i s = .next t
    ∧ t.status.busy = false ∧ t.status.done = true ∧ t.status.ovr = s.status.ovr ∧ t.status.accerr = s.status.accerr
    ∧ SameControl s t ∧ SameAgents s t
    ∧ ((∀ r, i ≠ .primetest r) → t.env.entropy = s.env.entropy)
    ∧ t.env.unwritten = (s.env.unwritten || (s.legal i && !(sources i).all s.operandDefined)))
  ∧ (∀ s t : State, s.status.busy = true → step s = .next t → t.status.busy = true → t.env.hold < s.env.hold)
  ∧ ∀ s : State, s.status.busy = true →
    ∃ n, n ≤ s.env.hold + 1
      ∧ (Sys2Proof.core.run n s = .fault .busError
        ∨ ∃ t : State, Sys2Proof.core.run n s = .next t ∧ t.status.busy = false)

/-- R24: the frame of the operand file and of XSGN: a command leaves every word of every register outside its destinations
as it was, and only XGCD writes XSGN. -/
def Obligations.CommandFrame : Prop :=
  ∀ (i : Instr) (s t : State), exec i s = .next t →
    SameRegsBut (destinations i) s t ∧ ((∀ rd rs1 rs2 rd2 rd3, i ≠ .xgcd rd rs1 rs2 rd2 rd3) → t.xsgn = s.xsgn)
    ∧ destinations .nop = [] ∧ (∀ d a b m, destinations (.modmul d a b m) = [d] ∧ destinations (.modexp d a b m) = [d])
    ∧ (∀ g a b u v, destinations (.xgcd g a b u v) = [g, u, v]) ∧ (∀ d a n, destinations (.modinv d a n) = [d])
    ∧ (∀ n, destinations (.tdiv n) = [] ∧ destinations (.primetest n) = []) ∧ ∀ n a, destinations (.mrround n a) = []

/-- R87: a command that ends with any error code commits nothing else; nor does an abort. -/
def Obligations.ErrorCommitsNothing : Prop :=
  (∀ s t : State, engineStep s = .next t → t.status.errcode ≠ .ok →
    t.x = s.x ∧ t.xsgn = s.xsgn ∧ t.cfg = s.cfg ∧ t.ie = s.ie ∧ t.cmd = s.cmd
    ∧ t.status.res = false ∧ t.status.busy = false ∧ t.status.done = true)
  ∧ ∀ s : State, s.abort.x = s.x ∧ s.abort.xsgn = s.xsgn ∧ s.abort.cfg = s.cfg ∧ s.abort.ie = s.ie ∧ s.abort.cmd = s.cmd
    ∧ s.abort.status.errcode = .aborted ∧ s.abort.status.res = false ∧ s.abort.status.busy = false
    ∧ s.abort.status.done = true

/-- R37: RES is cleared by every issue, set only by a successful TDIV, MRROUND or PRIMETEST, to that command's result, and
read by no command. -/
def Obligations.ResultFlag : Prop :=
  (∀ (s : State) (w : Word), (s.issue w).status.res = false)
  ∧ (∀ (i : Instr) (s t : State), exec i s = .next t → t.status.res = true →
      t.status.errcode = .ok ∧ ((∃ n, i = .tdiv n) ∨ (∃ n a, i = .mrround n a) ∨ ∃ n, i = .primetest n))
  ∧ (∀ (s t : State), engineStep s = .next t → t.status.errcode ≠ .ok → t.status.res = false)
  ∧ (∀ (i : Instr) (s : State) (b : Bool), exec i { s with status := { s.status with res := b } } = exec i s)
  ∧ ∀ s t : State, t.status.errcode = .ok →
      (∀ n, exec (.tdiv n) s = .next t → t.status.res = trialDivision s.params.tdLimit (s.operand n))
      ∧ (∀ n a, exec (.mrround n a) s = .next t → t.status.res = millerRabin (s.operand n) (s.operand a))
      ∧ ∀ n, exec (.primetest n) s = .next t →
          (primeTest s.params s.cfg (s.operand n) s.env.entropy).1 = some t.status.res

/-- R35: XSGN changes only by a successful XGCD, or by a reset. -/
def Obligations.XsgnWrittenOnlyByXgcd : Prop :=
  (∀ s t : State, step s = .next t → t.xsgn ≠ s.xsgn →
    (s.status.busy = true ∧ t.status.busy = false ∧ t.status.errcode = .ok
      ∧ ∃ rd rs1 rs2 rd2 rd3, decode s.cmd = .ok (.xgcd rd rs1 rs2 rd2 rd3))
    ∨ (t.xsgn = { sNeg := false, tNeg := false } ∧ ∃ e, t = State.resetWith s.params e))
  ∧ ∀ s : State, (s.busRead 0x020).getLsbD 0 = s.xsgn.sNeg ∧ (s.busRead 0x020).getLsbD 1 = s.xsgn.tNeg
      ∧ (s.busRead 0x020).extractLsb' 2 30 = 0

/-- R191, R195: the interrupt output, and what sets and clears it. -/
def Obligations.InterruptOutput : Prop :=
  (∀ s : State, s.irq = (s.ie && s.status.done))
  ∧ (∀ s t : State, engineStep s = .next t → t.status.done = true ∧ t.irq = s.ie)
  ∧ (∀ s : State, s.abort.irq = s.ie)
  ∧ (∀ (s : State) (v : Word), v.getLsbD 1 = true → (s.busWrite 0x014 v).irq = false)
  ∧ (∀ (s : State) (w : Word), s.status.busy = false → (s.busWrite 0x01C w).irq = false)
  ∧ (∀ s : State, s.resetBlock.irq = false)
  ∧ (∀ s : State, s.status.done = true → (s.busWrite 0x010 0x1).irq = true)
  ∧ ∀ s : State, (s.busWrite 0x010 0x0).irq = false ∧ (s.busWrite 0x010 0x0).status.done = s.status.done

/-- R191, R192: DONE rises only by a completion or an abort of a running command. -/
def Obligations.DoneRisesOnlyAtCompletion : Prop :=
  ∀ s t : State, step s = .next t → s.status.done = false → t.status.done = true →
    s.status.busy = true ∧ t.status.busy = false

/-- R188: OVR and ACCERR are sticky: only a STATUS write with a 1 in that bit, or a reset, clears one. -/
def Obligations.StickyFlagsClearedOnlyByHost : Prop :=
  ∀ s t : State, step s = .next t →
    (s.status.ovr = true → t.status.ovr = false →
      (∃ v rest, s.env.host = .write 0x014 .four v :: rest ∧ v.getLsbD 4 = true) ∨ ∃ e, t = State.resetWith s.params e)
    ∧ (s.status.accerr = true → t.status.accerr = false →
      (∃ v rest, s.env.host = .write 0x014 .four v :: rest ∧ v.getLsbD 5 = true) ∨ ∃ e, t = State.resetWith s.params e)

/-! ### The commands -/

/-- R170: NOP. -/
def Obligations.NopCompletes : Prop :=
  decode 0x00000000 = .ok .nop
  ∧ (∀ w : Word, fieldOpc w = 0x00 → w ≠ 0x00000000 → decode w = .error .unusedField)
  ∧ ∀ s : State, ∃ t, exec .nop s = .next t
      ∧ t = { s with status := { busy := false, done := true, res := false, ovr := s.status.ovr,
                                 accerr := s.status.accerr, errcode := .ok } }
      ∧ t.irq = s.ie

/-- R100: MODMUL, on every form: its encoding, its result, and its errors. -/
def Obligations.ModmulResult : Prop :=
  (∀ rd rs1 rs2 rs3 : RegIdx, decode (packWord 0x01 rd rs1 rs2 rs3 0 0) = .ok (.modmul rd rs1 rs2 rs3)
      ∧ asmInstr (.command .modmul) [rd, rs1, rs2, rs3] = some (.modmul rd rs1 rs2 rs3))
  ∧ (∀ (s : State) (rd rs1 rs2 rs3 : RegIdx), s.inv = true → s.hasReg rd → s.hasReg rs1 → s.hasReg rs2 → s.hasReg rs3 →
      s.operand rs3 ≠ 0 →
      ∃ t, exec (.modmul rd rs1 rs2 rs3) s = .next t ∧ SucceededWith [rd] false s t ∧ t.xsgn = s.xsgn
        ∧ t.operandDefined rd = true
        ∧ t.operand rd = s.operand rs1 * s.operand rs2 % s.operand rs3
        ∧ t.operand rd < s.operand rs3 ∧ t.operand rd < 2 ^ s.params.nbits)
  ∧ (∀ (s : State) (rd rs1 rs2 rs3 : RegIdx), s.hasReg rd → s.hasReg rs1 → s.hasReg rs2 → s.hasReg rs3 →
      s.operand rs3 = 0 → ∃ t, exec (.modmul rd rs1 rs2 rs3) s = .next t ∧ FailedWith .invalidParam s t)
  ∧ ∀ (s : State) (rd rs1 rs2 rs3 : RegIdx), ¬ (s.hasReg rd ∧ s.hasReg rs1 ∧ s.hasReg rs2 ∧ s.hasReg rs3) →
      ∃ t, exec (.modmul rd rs1 rs2 rs3) s = .next t ∧ FailedWith .illegal s t

/-- R101: the corner cases of MODMUL: modulus 1, a zero factor, factors not below the modulus, squaring, b = 1, a destination
that is a source, the largest modulus, and the bound of the product. -/
def Obligations.ModmulCornerCases : Prop :=
  ∀ (s t : State) (rd rs1 rs2 rs3 : RegIdx), s.inv = true → s.hasReg rd → s.hasReg rs1 → s.hasReg rs2 → s.hasReg rs3 →
    exec (.modmul rd rs1 rs2 rs3) s = .next t →
    (s.operand rs3 = 1 → t.operand rd = 0)
    ∧ (s.operand rs3 ≠ 0 → (s.operand rs1 = 0 ∨ s.operand rs2 = 0) → t.operand rd = 0)
    ∧ (s.operand rs3 ≠ 0 → (s.operand rs3 ≤ s.operand rs1 ∨ s.operand rs3 ≤ s.operand rs2) →
        t.operand rd = (s.operand rs1 % s.operand rs3) * (s.operand rs2 % s.operand rs3) % s.operand rs3)
    ∧ (s.operand rs3 ≠ 0 → rs1 = rs2 → t.operand rd = s.operand rs1 ^ 2 % s.operand rs3)
    ∧ (s.operand rs3 ≠ 0 → s.operand rs2 = 1 → t.operand rd = s.operand rs1 % s.operand rs3)
    ∧ (s.operand rs3 ≠ 0 → (rd = rs1 ∨ rd = rs2 ∨ rd = rs3) →
        t.operand rd = s.operand rs1 * s.operand rs2 % s.operand rs3)
    ∧ (s.operand rs3 = 2 ^ s.params.nbits - 1 → s.operand rs1 = 2 ^ s.params.nbits - 2 →
        s.operand rs2 = 2 ^ s.params.nbits - 2 → t.operand rd = 1)
    ∧ s.operand rs1 * s.operand rs2 ≤ 2 ^ (2 * s.params.nbits) - 2 ^ (s.params.nbits + 1) + 1

/-- R110: MODEXP, on every form: its encoding, its result b^e mod m with b^0 = 1, and its errors. -/
def Obligations.ModexpResult : Prop :=
  (∀ rd rs1 rs2 rs3 : RegIdx, decode (packWord 0x02 rd rs1 rs2 rs3 0 0) = .ok (.modexp rd rs1 rs2 rs3)
      ∧ asmInstr (.command .modexp) [rd, rs1, rs2, rs3] = some (.modexp rd rs1 rs2 rs3))
  ∧ (∀ (s : State) (rd rs1 rs2 rs3 : RegIdx), s.inv = true → s.hasReg rd → s.hasReg rs1 → s.hasReg rs2 → s.hasReg rs3 →
      s.operand rs3 ≠ 0 →
      ∃ t, exec (.modexp rd rs1 rs2 rs3) s = .next t ∧ SucceededWith [rd] false s t ∧ t.xsgn = s.xsgn
        ∧ t.operandDefined rd = true
        ∧ t.operand rd = s.operand rs1 ^ s.operand rs2 % s.operand rs3)
  ∧ (∀ (s : State) (rd rs1 rs2 rs3 : RegIdx), s.hasReg rd → s.hasReg rs1 → s.hasReg rs2 → s.hasReg rs3 →
      s.operand rs3 = 0 → ∃ t, exec (.modexp rd rs1 rs2 rs3) s = .next t ∧ FailedWith .invalidParam s t)
  ∧ ∀ (s : State) (rd rs1 rs2 rs3 : RegIdx), ¬ (s.hasReg rd ∧ s.hasReg rs1 ∧ s.hasReg rs2 ∧ s.hasReg rs3) →
      ∃ t, exec (.modexp rd rs1 rs2 rs3) s = .next t ∧ FailedWith .illegal s t

/-- R111: the corner cases of MODEXP. -/
def Obligations.ModexpCornerCases : Prop :=
  ∀ (s t : State) (rd rs1 rs2 rs3 : RegIdx), s.inv = true → s.hasReg rd → s.hasReg rs1 → s.hasReg rs2 → s.hasReg rs3 →
    exec (.modexp rd rs1 rs2 rs3) s = .next t →
    (s.operand rs2 = 0 → 2 ≤ s.operand rs3 → t.operand rd = 1)
    ∧ (s.operand rs3 = 1 → t.operand rd = 0)
    ∧ (s.operand rs1 = 0 → 1 ≤ s.operand rs2 → s.operand rs3 ≠ 0 → t.operand rd = 0)
    ∧ (s.operand rs3 ≠ 0 → s.operand rs3 ≤ s.operand rs1 →
        t.operand rd = (s.operand rs1 % s.operand rs3) ^ s.operand rs2 % s.operand rs3)
    ∧ (s.operand rs3 ≠ 0 → s.operand rs1 % s.operand rs3 = 0 → 1 ≤ s.operand rs2 → t.operand rd = 0)
    ∧ (s.operand rs3 ≠ 0 → s.operand rs2 = 1 → t.operand rd = s.operand rs1 % s.operand rs3)
    ∧ (s.operand rs3 = 0 → t.status.errcode = .invalidParam)
    ∧ (s.operand rs3 ≠ 0 → rd = rs1 → t.operand rd = s.operand rs1 ^ s.operand rs2 % s.operand rs3)

/-- R120: the triple is that of the recursion with the b = 0 base case; it is the gcd with a Bézout pair. -/
def Obligations.BezoutRecursion : Prop :=
  (∀ a : Nat, ext a 0 = { g := a, s := 1, t := 0 })
  ∧ (∀ a b : Nat, 0 < b →
      ext a b = { g := (ext b (a % b)).g, s := (ext b (a % b)).t,
                  t := (ext b (a % b)).s - ((a / b : Nat) : Int) * (ext b (a % b)).t })
  ∧ ∀ a b : Nat, (ext a b).g = Nat.gcd a b ∧ (ext a b).s * (a : Int) + (ext a b).t * (b : Int) = ((ext a b).g : Int)

/-- R122: the coefficients' bounds, so that every result fits its register. -/
def Obligations.BezoutCoefficientBounds : Prop :=
  (∀ a b : Nat, 1 ≤ a → 1 ≤ b →
    (ext a b).s.natAbs ≤ max 1 (b / (2 * Nat.gcd a b)) ∧ (ext a b).t.natAbs ≤ max 1 (a / (2 * Nat.gcd a b)))
  ∧ (∀ a b : Nat, (a = 0 ∨ b = 0) →
      ext a b = { g := a, s := 1, t := 0 } ∨ ext a b = { g := b, s := 0, t := 1 } ∨ ext a b = { g := 0, s := 1, t := 0 })
  ∧ ∀ a b : Nat, (ext a b).s.natAbs ≤ max (max a b) 1 ∧ (ext a b).t.natAbs ≤ max (max a b) 1 ∧ (ext a b).g ≤ max (max a b) 1

/-- R121: XGCD, on every form: its encoding, its three results and XSGN, and its only error. -/
def Obligations.XgcdResult : Prop :=
  (∀ rd rs1 rs2 rd2 rd3 : RegIdx, decode (packWord 0x03 rd rs1 rs2 0 rd2 rd3) = .ok (.xgcd rd rs1 rs2 rd2 rd3)
      ∧ asmInstr (.command .xgcd) [rd, rd2, rd3, rs1, rs2] = some (.xgcd rd rs1 rs2 rd2 rd3))
  ∧ (∀ (s : State) (rd rs1 rs2 rd2 rd3 : RegIdx), s.inv = true → s.hasReg rd → s.hasReg rs1 → s.hasReg rs2 →
      s.hasReg rd2 → s.hasReg rd3 → rd ≠ rd2 → rd ≠ rd3 → rd2 ≠ rd3 →
      ∃ t, exec (.xgcd rd rs1 rs2 rd2 rd3) s = .next t ∧ SucceededWith [rd, rd2, rd3] false s t
        ∧ t.operandDefined rd = true ∧ t.operandDefined rd2 = true ∧ t.operandDefined rd3 = true
        ∧ t.operand rd = (ext (s.operand rs1) (s.operand rs2)).g
        ∧ t.operand rd2 = (ext (s.operand rs1) (s.operand rs2)).s.natAbs
        ∧ t.operand rd3 = (ext (s.operand rs1) (s.operand rs2)).t.natAbs
        ∧ (t.xsgn.sNeg = true ↔ (ext (s.operand rs1) (s.operand rs2)).s < 0)
        ∧ (t.xsgn.tNeg = true ↔ (ext (s.operand rs1) (s.operand rs2)).t < 0))
  ∧ ∀ (s : State) (rd rs1 rs2 rd2 rd3 : RegIdx),
      ¬ (s.hasReg rd ∧ s.hasReg rs1 ∧ s.hasReg rs2 ∧ s.hasReg rd2 ∧ s.hasReg rd3 ∧ rd ≠ rd2 ∧ rd ≠ rd3 ∧ rd2 ≠ rd3) →
      ∃ t, exec (.xgcd rd rs1 rs2 rd2 rd3) s = .next t ∧ FailedWith .illegal s t

/-- R126: the Bézout identity over what a completed XGCD leaves in the registers and in XSGN. -/
def Obligations.XgcdBezoutIdentity : Prop :=
  ∀ (s t : State) (rd rs1 rs2 rd2 rd3 : RegIdx), s.inv = true → s.hasReg rd → s.hasReg rs1 → s.hasReg rs2 →
    s.hasReg rd2 → s.hasReg rd3 → rd ≠ rd2 → rd ≠ rd3 → rd2 ≠ rd3 →
    exec (.xgcd rd rs1 rs2 rd2 rd3) s = .next t →
    (-1 : Int) ^ t.xsgn.sNeg.toNat * (t.operand rd2 : Int) * (s.operand rs1 : Int)
        + (-1 : Int) ^ t.xsgn.tNeg.toNat * (t.operand rd3 : Int) * (s.operand rs2 : Int) = (t.operand rd : Int)
    ∧ t.operand rd = Nat.gcd (s.operand rs1) (s.operand rs2)

/-- R123: the corner cases of the triple. -/
def Obligations.XgcdCornerCases : Prop :=
  ext 0 0 = { g := 0, s := 1, t := 0 }
  ∧ (∀ a : Nat, 0 < a → ext a 0 = { g := a, s := 1, t := 0 })
  ∧ (∀ b : Nat, 0 < b → ext 0 b = { g := b, s := 0, t := 1 })
  ∧ (∀ a : Nat, 0 < a → ext a a = { g := a, s := 0, t := 1 })
  ∧ (∀ a b : Nat, a < b → ext a b = { g := (ext b a).g, s := (ext b a).t, t := (ext b a).s })
  ∧ ext 46 240 = { g := 2, s := 47, t := -9 } ∧ ext 240 46 = { g := 2, s := -9, t := 47 }

/-- R124: MODINV, on every form: its encoding, the unique inverse, and its errors. -/
def Obligations.ModinvResult : Prop :=
  (∀ rd rs1 rs2 : RegIdx, decode (packWord 0x04 rd rs1 rs2 0 0 0) = .ok (.modinv rd rs1 rs2)
      ∧ asmInstr (.command .modinv) [rd, rs1, rs2] = some (.modinv rd rs1 rs2))
  ∧ (∀ (s : State) (rd rs1 rs2 : RegIdx), s.inv = true → s.hasReg rd → s.hasReg rs1 → s.hasReg rs2 →
      s.operand rs2 ≠ 0 → Nat.gcd (s.operand rs1) (s.operand rs2) = 1 →
      ∃ t, exec (.modinv rd rs1 rs2) s = .next t ∧ SucceededWith [rd] false s t ∧ t.xsgn = s.xsgn
        ∧ t.operandDefined rd = true
        ∧ t.operand rd < s.operand rs2
        ∧ s.operand rs1 * t.operand rd % s.operand rs2 = 1 % s.operand rs2
        ∧ (∀ x, x < s.operand rs2 → s.operand rs1 * x % s.operand rs2 = 1 % s.operand rs2 → x = t.operand rd)
        ∧ (t.operand rd : Int) = (ext (s.operand rs1) (s.operand rs2)).s % (s.operand rs2 : Int))
  ∧ (∀ (s : State) (rd rs1 rs2 : RegIdx), s.hasReg rd → s.hasReg rs1 → s.hasReg rs2 → s.operand rs2 = 0 →
      ∃ t, exec (.modinv rd rs1 rs2) s = .next t ∧ FailedWith .invalidParam s t)
  ∧ (∀ (s : State) (rd rs1 rs2 : RegIdx), s.hasReg rd → s.hasReg rs1 → s.hasReg rs2 → s.operand rs2 ≠ 0 →
      Nat.gcd (s.operand rs1) (s.operand rs2) ≠ 1 →
      ∃ t, exec (.modinv rd rs1 rs2) s = .next t ∧ FailedWith .noInverse s t)
  ∧ ∀ (s : State) (rd rs1 rs2 : RegIdx), ¬ (s.hasReg rd ∧ s.hasReg rs1 ∧ s.hasReg rs2) →
      ∃ t, exec (.modinv rd rs1 rs2) s = .next t ∧ FailedWith .illegal s t

/-- R125: the corner cases of MODINV. -/
def Obligations.ModinvCornerCases : Prop :=
  (∀ (s t : State) (rd rs1 rs2 : RegIdx), s.inv = true → s.hasReg rd → s.hasReg rs1 → s.hasReg rs2 →
    exec (.modinv rd rs1 rs2) s = .next t →
    (s.operand rs2 = 1 → t.operand rd = 0 ∧ t.status.errcode = .ok)
    ∧ (s.operand rs1 = 0 → 2 ≤ s.operand rs2 → t.status.errcode = .noInverse)
    ∧ (s.operand rs1 = 1 → s.operand rs2 ≠ 0 → t.operand rd = 1 % s.operand rs2)
    ∧ (s.operand rs2 ≠ 0 → 1 < Nat.gcd (s.operand rs1) (s.operand rs2) →
        t.status.errcode = .noInverse ∧ t.reg rd.toNat = s.reg rd.toNat)
    ∧ (s.operand rs2 = 0 → t.status.errcode = .invalidParam))
  ∧ (∀ (rd : RegIdx) (a n : Nat), n ≠ 0 → n ≤ a → modinvResult rd a n = modinvResult rd (a % n) n)
  ∧ (∀ rd : RegIdx, modinvResult rd 65537 3120 = .ok [(rd, 2753)] false none
      ∧ modinvResult rd 6 9 = .err .noInverse ∧ modinvResult rd 1 0 = .err .invalidParam)

/-- R140: the small-prime table, in order; in the reference configuration its 54 entries. -/
def Obligations.SmallPrimeTable : Prop :=
  (∀ limit p : Nat, p ∈ smallPrimes limit ↔ p.Prime ∧ 2 ≤ p ∧ p < limit)
  ∧ (∀ limit : Nat, (smallPrimes limit).Pairwise (· < ·))
  ∧ (∀ limit : Nat, 3 ≤ limit → 2 ∈ smallPrimes limit)
  ∧ smallPrimes 256 =
      [2, 3, 5, 7, 11, 13, 17, 19, 23, 29, 31, 37, 41, 43, 47, 53, 59, 61]
        ++ [67, 71, 73, 79, 83, 89, 97, 101, 103, 107, 109, 113, 127, 131, 137, 139, 149, 151]
        ++ [157, 163, 167, 173, 179, 181, 191, 193, 197, 199, 211, 223, 227, 229, 233, 239, 241, 251]
  ∧ (smallPrimes 256).length = 54

/-- R141: the trial-division predicate, and what its answers mean. -/
def Obligations.TrialDivisionMeaning : Prop :=
  (∀ limit n : Nat, trialDivision limit n = true ↔
      2 ≤ n ∧ ((n < limit ∧ n.Prime) ∨ ∀ p, p < limit → p.Prime → n % p ≠ 0))
  ∧ (∀ limit n : Nat, trialDivision limit n = false → ¬ n.Prime)
  ∧ ∀ limit n : Nat, n < limit ^ 2 → trialDivision limit n = true → n.Prime

/-- R142: TDIV, on every form: its encoding, RES, and its only error. -/
def Obligations.TdivResult : Prop :=
  (∀ rs1 : RegIdx, decode (packWord 0x05 0 rs1 0 0 0 0) = .ok (.tdiv rs1)
      ∧ asmInstr (.command .tdiv) [rs1] = some (.tdiv rs1))
  ∧ (∀ (s : State) (rs1 : RegIdx), s.hasReg rs1 →
      ∃ t, exec (.tdiv rs1) s = .next t ∧ t.xsgn = s.xsgn
        ∧ SucceededWith [] (trialDivision s.params.tdLimit (s.operand rs1)) s t
        ∧ (t.status.res = true ↔ 2 ≤ s.operand rs1 ∧ ((s.operand rs1 < s.params.tdLimit ∧ (s.operand rs1).Prime)
            ∨ ∀ p, p < s.params.tdLimit → p.Prime → s.operand rs1 % p ≠ 0)))
  ∧ (∀ (s : State) (rs1 : RegIdx), ¬ s.hasReg rs1 → ∃ t, exec (.tdiv rs1) s = .next t ∧ FailedWith .illegal s t)
  ∧ ([0, 1, 2, 4, 251, 257, 2047, 3233, 65535, 65537].map (trialDivision 256)
      = [false, false, true, false, true, true, false, false, false, true])

/-- R145, R144: MRROUND, on every form: its encoding, RES as the strong-probable-prime test, and its errors. -/
def Obligations.MrroundResult : Prop :=
  (∀ rs1 rs2 : RegIdx, decode (packWord 0x06 0 rs1 rs2 0 0 0) = .ok (.mrround rs1 rs2)
      ∧ asmInstr (.command .mrround) [rs1, rs2] = some (.mrround rs1 rs2))
  ∧ (∀ (s : State) (rs1 rs2 : RegIdx), s.hasReg rs1 → s.hasReg rs2 →
      5 ≤ s.operand rs1 → s.operand rs1 % 2 = 1 → 2 ≤ s.operand rs2 → s.operand rs2 ≤ s.operand rs1 - 2 →
      ∃ t, exec (.mrround rs1 rs2) s = .next t ∧ t.xsgn = s.xsgn
        ∧ SucceededWith [] (millerRabin (s.operand rs1) (s.operand rs2)) s t
        ∧ ∃ k d, s.operand rs1 - 1 = 2 ^ k * d ∧ d % 2 = 1
          ∧ (t.status.res = true ↔ s.operand rs2 ^ d % s.operand rs1 = 1
              ∨ ∃ r, r < k ∧ s.operand rs2 ^ (2 ^ r * d) % s.operand rs1 = s.operand rs1 - 1))
  ∧ (∀ (s : State) (rs1 rs2 : RegIdx), s.hasReg rs1 → s.hasReg rs2 →
      (s.operand rs1 < 5 ∨ s.operand rs1 % 2 = 0 ∨ s.operand rs2 < 2 ∨ s.operand rs1 - 2 < s.operand rs2) →
      ∃ t, exec (.mrround rs1 rs2) s = .next t ∧ FailedWith .invalidParam s t)
  ∧ ∀ (s : State) (rs1 rs2 : RegIdx), ¬ (s.hasReg rs1 ∧ s.hasReg rs2) →
      ∃ t, exec (.mrround rs1 rs2) s = .next t ∧ FailedWith .illegal s t

/-- R144: a prime passes every base in [2, n - 2]; so a base that fails shows n composite. -/
def Obligations.MillerRabinPassesPrimes : Prop :=
  ∀ n a : Nat, n.Prime → 5 ≤ n → 2 ≤ a → a ≤ n - 2 → millerRabin n a = true

/-- R147: a draw gives a base in [2, n - 2] or the ENTROPY error; every base, and the error, is some source's answer. A
command that an abort or a reset discards takes none of the lined-up answers (the model's choice, log entry 15). -/
def Obligations.DrawnBasesAreInRange : Prop :=
  (∀ (n tries a : Nat) (e : EntropySource), (e.drawBase n tries).1 = some a → 2 ≤ a ∧ a ≤ n - 2)
  ∧ (∀ n tries taken a : Nat, 5 ≤ n → 1 ≤ tries → 2 ≤ a → a ≤ n - 2 →
      ∃ answers, (EntropySource.drawBase n tries { answers := answers, taken := taken }).1 = some a)
  ∧ (∀ n tries taken : Nat, 5 ≤ n →
      ∃ answers, (EntropySource.drawBase n tries { answers := answers, taken := taken }).1 = none)
  ∧ ∀ (s : State) (v : Word), (s.busWrite 0x010 v).env.entropy = s.env.entropy

/-- R149, R152: PRIMETEST where it decides before any draw, and its encoding and its ILLEGAL case. -/
def Obligations.PrimetestDecidesBeforeDraws : Prop :=
  (∀ rs1 : RegIdx, decode (packWord 0x07 0 rs1 0 0 0 0) = .ok (.primetest rs1)
      ∧ asmInstr (.command .primetest) [rs1] = some (.primetest rs1))
  ∧ (∀ (s : State) (rs1 : RegIdx) (b : Bool), s.hasReg rs1 →
      ((s.operand rs1 < 2 ∧ b = false)
        ∨ ((s.operand rs1 = 2 ∨ s.operand rs1 = 3) ∧ b = true)
        ∨ (4 ≤ s.operand rs1 ∧ s.operand rs1 % 2 = 0 ∧ b = false)
        ∨ (5 ≤ s.operand rs1 ∧ s.operand rs1 % 2 = 1 ∧ s.cfg.tdEn = true ∧ (s.operand rs1).Prime
            ∧ s.operand rs1 < s.params.tdLimit ∧ b = true)
        ∨ (5 ≤ s.operand rs1 ∧ s.operand rs1 % 2 = 1 ∧ s.cfg.tdEn = true
            ∧ ¬ ((s.operand rs1).Prime ∧ s.operand rs1 < s.params.tdLimit)
            ∧ (∃ p, p.Prime ∧ p < s.params.tdLimit ∧ s.operand rs1 % p = 0) ∧ b = false)) →
      ∃ t, exec (.primetest rs1) s = .next t ∧ t.xsgn = s.xsgn ∧ t.env.entropy = s.env.entropy
        ∧ SucceededWith [] b s t)
  ∧ ∀ (s : State) (rs1 : RegIdx), ¬ s.hasReg rs1 → ∃ t, exec (.primetest rs1) s = .next t ∧ FailedWith .illegal s t

/-- R149, R151: PRIMETEST where it reaches the Miller–Rabin rounds, over the bases the source gives (`Draws`), which are in
[2, n - 2]: RES = 1 iff it gives MR_ROUNDS bases that all pass; RES = 0 iff it gives fewer that all pass and then one that
fails; ENTROPY, with nothing committed, iff it gives fewer that all pass and then a draw gives none. The source is left where
the last draw left it. -/
def Obligations.PrimetestRounds : Prop :=
  ∀ (s : State) (rs1 : RegIdx), s.hasReg rs1 → 5 ≤ s.operand rs1 → s.operand rs1 % 2 = 1 →
    (s.cfg.tdEn = true → ∀ p, p.Prime → p < s.params.tdLimit → s.operand rs1 % p ≠ 0) →
    ∃ t, exec (.primetest rs1) s = .next t ∧ t.xsgn = s.xsgn
      ∧ (FailedWith .entropy s t ∨ SucceededWith [] true s t ∨ SucceededWith [] false s t)
      ∧ (SucceededWith [] true s t ↔
        ∃ bases, Draws (s.operand rs1) s.params.entMaxTries s.env.entropy bases t.env.entropy
          ∧ bases.length = s.cfg.mrRounds.toNat ∧ ∀ a ∈ bases, millerRabin (s.operand rs1) a = true)
      ∧ (SucceededWith [] false s t ↔
        ∃ bases a e, Draws (s.operand rs1) s.params.entMaxTries s.env.entropy bases e
          ∧ bases.length < s.cfg.mrRounds.toNat ∧ (∀ b ∈ bases, millerRabin (s.operand rs1) b = true)
          ∧ e.drawBase (s.operand rs1) s.params.entMaxTries = (some a, t.env.entropy)
          ∧ millerRabin (s.operand rs1) a = false)
      ∧ (FailedWith .entropy s t ↔
        ∃ bases e, Draws (s.operand rs1) s.params.entMaxTries s.env.entropy bases e
          ∧ bases.length < s.cfg.mrRounds.toNat ∧ (∀ b ∈ bases, millerRabin (s.operand rs1) b = true)
          ∧ e.drawBase (s.operand rs1) s.params.entMaxTries = (none, t.env.entropy))
      ∧ ∀ bases e, Draws (s.operand rs1) s.params.entMaxTries s.env.entropy bases e →
          ∀ a ∈ bases, 2 ≤ a ∧ a ≤ s.operand rs1 - 2

/-- R150: soundness on primes, and the composites that are always rejected. -/
def Obligations.PrimetestSoundOnPrimes : Prop :=
  (∀ (s t : State) (rs1 : RegIdx), s.hasReg rs1 → (s.operand rs1).Prime →
    exec (.primetest rs1) s = .next t → t.status.errcode = .ok → t.status.res = true)
  ∧ ∀ (s : State) (rs1 : RegIdx), s.hasReg rs1 → ¬ (s.operand rs1).Prime →
      (s.operand rs1 < 2 ∨ s.operand rs1 % 2 = 0
        ∨ (s.cfg.tdEn = true ∧ ∃ p, p.Prime ∧ p < s.params.tdLimit ∧ p ∣ s.operand rs1)) →
      ∃ t, exec (.primetest rs1) s = .next t ∧ t.status.errcode = .ok ∧ t.status.res = false

/-- R185: ENTROPY is raised only by PRIMETEST, and only where a base is being drawn. -/
def Obligations.EntropyErrorOnlyWhileDrawing : Prop :=
  ∀ (i : Instr) (s t : State), exec i s = .next t → t.status.errcode = .entropy →
    ∃ rs1, i = .primetest rs1 ∧ 4 ≤ s.operand rs1 ∧ s.operand rs1 % 2 = 1
      ∧ (s.cfg.tdEn = true → ¬ (s.operand rs1 ∈ smallPrimes s.params.tdLimit)
          ∧ ∀ p ∈ smallPrimes s.params.tdLimit, s.operand rs1 % p ≠ 0)

/-- R183, R184: exactly when INVALID_PARAM and NO_INVERSE are raised, for a command that passes its decode checks; a command
that does not ends with ILLEGAL. -/
def Obligations.ErrorCodesExactly : Prop :=
  (∀ (i : Instr) (s t : State), s.legal i = true → exec i s = .next t →
    (t.status.errcode = .invalidParam ↔
      ((∃ rd rs1 rs2 rs3, i = .modmul rd rs1 rs2 rs3 ∧ s.operand rs3 = 0)
        ∨ (∃ rd rs1 rs2 rs3, i = .modexp rd rs1 rs2 rs3 ∧ s.operand rs3 = 0)
        ∨ (∃ rd rs1 rs2, i = .modinv rd rs1 rs2 ∧ s.operand rs2 = 0)
        ∨ ∃ rs1 rs2, i = .mrround rs1 rs2
            ∧ (s.operand rs1 < 5 ∨ s.operand rs1 % 2 = 0 ∨ s.operand rs2 < 2 ∨ s.operand rs1 - 2 < s.operand rs2)))
    ∧ (t.status.errcode = .noInverse ↔
      ∃ rd rs1 rs2, i = .modinv rd rs1 rs2 ∧ 1 ≤ s.operand rs2 ∧ Nat.gcd (s.operand rs1) (s.operand rs2) ≠ 1))
  ∧ ∀ (i : Instr) (s t : State), s.legal i = false → exec i s = .next t → t.status.errcode = .illegal

/-! ### The invariant -/

/-- The invariant holds after reset. -/
def Obligations.ResetHasInv : Prop := State.reset.inv = true

/-- Every step of the machine, by whichever agent, keeps the invariant: the operand file's form, CFG.MR_ROUNDS in 1..255,
the legal parameters, and no DONE, ERRCODE or RES beside BUSY. -/
def Obligations.StepKeepsInv : Prop :=
  ∀ s t : State, s.inv = true → step s = .next t → t.inv = true
end

