-- ==== Sys2Proof/Laws/Arith.lean ====
section
/-!
SUPPORT. The arithmetic of the units is what the spec's formulas say: powMod is b^e mod m (R110), ext gives the gcd and a
Bézout pair (R120), isPrime is primality (R140), splitTwos is the decomposition of R143, and the squarings of R144 look
for n - 1 among the repeated squares.
-/
namespace Sys2Proof.Machine

/-! ### Exponentiation -/

theorem powModFuel_eq (b m : Nat) : ∀ fuel e, e ≤ fuel → powModFuel b m fuel e = b ^ e % m := by
  intro fuel
  induction fuel with
  | zero => intro e he; simp [powModFuel, Nat.le_zero.mp he]
  | succ f ih =>
    intro e he
    rw [powModFuel]
    by_cases h0 : e = 0
    · simp [h0]
    · have ihe := ih (e / 2) (by omega)
      rw [if_neg h0]
      simp only [ihe]
      have sq : b ^ (e / 2) % m * (b ^ (e / 2) % m) % m = b ^ (e / 2 * 2) % m := by
        rw [← Nat.mul_mod, pow_mul, sq]
      split
      · have : e = e / 2 * 2 + 1 := by omega
        rw [sq, Nat.mod_mul_mod, ← pow_succ, ← this]
      · have : e = e / 2 * 2 := by omega
        rw [sq, ← this]

theorem powMod_eq (b e m : Nat) : powMod b e m = b ^ e % m := powModFuel_eq b m e e le_rfl

/-! ### The Bézout recursion -/

theorem extFuel_zero_right (fuel a : Nat) : extFuel fuel a 0 = { g := a, s := 1, t := 0 } := by
  cases fuel <;> simp [extFuel]

/-- More fuel than the second argument changes nothing. -/
theorem extFuel_fuel : ∀ f k a b, b < f → b < k → extFuel f a b = extFuel k a b := by
  intro f
  induction f with
  | zero => intro k a b h; omega
  | succ f ih =>
    intro k a b hf hk
    obtain ⟨k, rfl⟩ : ∃ k', k = k' + 1 := ⟨k - 1, by omega⟩
    by_cases hb : b = 0
    · simp [hb, extFuel_zero_right]
    · have hlt : a % b < b := Nat.mod_lt _ (by omega)
      simp only [extFuel, if_neg hb, ih k b (a % b) (by omega) (by omega)]

theorem ext_zero_right (a : Nat) : ext a 0 = { g := a, s := 1, t := 0 } := extFuel_zero_right _ a

/-- The recursion equation of R120. -/
theorem ext_step (a b : Nat) (hb : 0 < b) :
    ext a b = { g := (ext b (a % b)).g, s := (ext b (a % b)).t,
                t := (ext b (a % b)).s - ((a / b : Nat) : Int) * (ext b (a % b)).t } := by
  have hlt : a % b < b := Nat.mod_lt _ hb
  have hne : b ≠ 0 := by omega
  have h : extFuel b b (a % b) = extFuel (a % b + 1) b (a % b) := extFuel_fuel _ _ _ _ hlt (by omega)
  show extFuel (b + 1) a b = _
  simp only [extFuel, if_neg hne, h]
  rfl

/-- Induction along the recursion of R120. -/
theorem ext_induction {P : Nat → Nat → Prop} (h0 : ∀ a, P a 0) (hs : ∀ a b, 0 < b → P b (a % b) → P a b) (a b : Nat) :
    P a b := by
  induction b using Nat.strong_induction_on generalizing a with
  | _ b ih =>
    rcases Nat.eq_zero_or_pos b with rfl | hb
    · exact h0 a
    · exact hs a b hb (ih _ (Nat.mod_lt _ hb) b)

theorem ext_gcd (a b : Nat) : (ext a b).g = Nat.gcd a b := by
  refine ext_induction (P := fun a b => (ext a b).g = Nat.gcd a b) ?_ ?_ a b
  · intro a; simp [ext_zero_right]
  · intro a b hb ih
    rw [ext_step a b hb]
    show (ext b (a % b)).g = _
    rw [ih, Nat.gcd_comm a b, Nat.gcd_rec b a, Nat.gcd_comm]

theorem ext_bezout (a b : Nat) : (ext a b).s * a + (ext a b).t * b = (ext a b).g := by
  refine ext_induction (P := fun a b => (ext a b).s * (a : Int) + (ext a b).t * b = (ext a b).g) ?_ ?_ a b
  · intro a; simp [ext_zero_right]
  · intro a b hb ih
    rw [ext_step a b hb]
    have hdiv : (a : Int) = b * ((a / b : Nat) : Int) + ((a % b : Nat) : Int) := by
      exact_mod_cast (Nat.div_add_mod a b).symm
    calc (ext b (a % b)).t * (a : Int)
          + ((ext b (a % b)).s - ((a / b : Nat) : Int) * (ext b (a % b)).t) * b
        = (ext b (a % b)).s * b + (ext b (a % b)).t * (a - b * ((a / b : Nat) : Int)) := by ring
      _ = (ext b (a % b)).s * b + (ext b (a % b)).t * ((a % b : Nat) : Int) := by
          rw [show (a : Int) - b * ((a / b : Nat) : Int) = ((a % b : Nat) : Int) by omega]
      _ = _ := ih

/-! ### Primes -/

theorem isPrime_iff (p : Nat) : isPrime p = true ↔ p.Prime := by
  simp only [isPrime, Bool.and_eq_true, decide_eq_true_eq, List.all_eq_true, List.mem_range, Bool.or_eq_true, bne_iff_ne]
  rw [Nat.prime_def_lt']
  refine and_congr_right fun _ => ⟨fun h m hm hlt hdvd => ?_, fun h d hd => ?_⟩
  · rcases h m hlt with h' | h'
    · omega
    · exact h' (Nat.mod_eq_zero_of_dvd hdvd)
  · by_cases hd2 : d < 2
    · exact .inl hd2
    · exact .inr fun h0 => h d (by omega) hd (Nat.dvd_of_mod_eq_zero h0)

theorem mem_smallPrimes (limit p : Nat) : p ∈ smallPrimes limit ↔ p < limit ∧ p.Prime := by
  simp [smallPrimes, isPrime_iff]

theorem inSmallPrimes_iff (limit n : Nat) : inSmallPrimes limit n = true ↔ n < limit ∧ n.Prime := by
  simp [inSmallPrimes, mem_smallPrimes]

theorem hasSmallFactor_iff (limit n : Nat) :
    hasSmallFactor limit n = true ↔ ∃ p, p < limit ∧ p.Prime ∧ p ∣ n := by
  simp [hasSmallFactor, mem_smallPrimes, Nat.dvd_iff_mod_eq_zero, and_assoc]

/-! ### The Miller–Rabin round -/

theorem splitTwos_spec : ∀ fuel m, m ≤ fuel → 0 < m →
    m = 2 ^ (splitTwos fuel m).1 * (splitTwos fuel m).2 ∧ (splitTwos fuel m).2 % 2 = 1 := by
  intro fuel
  induction fuel with
  | zero => intro m h; omega
  | succ f ih =>
    intro m hm hpos
    rw [splitTwos]
    by_cases h2 : m % 2 = 0
    · obtain ⟨h, hodd⟩ := ih (m / 2) (by omega) (by omega)
      simp only [if_pos h2]
      refine ⟨?_, hodd⟩
      rw [pow_succ, mul_right_comm, ← h]
      omega
    · simp only [if_neg h2, pow_zero, one_mul, true_and]
      omega

/-- The decomposition of R143. -/
theorem splitTwos_eq (m : Nat) (h : 0 < m) :
    m = 2 ^ (splitTwos m m).1 * (splitTwos m m).2 ∧ (splitTwos m m).2 % 2 = 1 := splitTwos_spec m m le_rfl h

theorem millerRabinSquares_iff (n : Nat) : ∀ k x,
    millerRabinSquares n k x = true ↔ ∃ r, 1 ≤ r ∧ r ≤ k ∧ x ^ 2 ^ r % n = n - 1 := by
  intro k
  induction k with
  | zero => intro x; simp only [millerRabinSquares, Bool.false_eq_true, false_iff]; rintro ⟨r, h1, h2, -⟩; omega
  | succ k ih =>
    intro x
    have key : ∀ r, (x * x % n) ^ 2 ^ r % n = x ^ 2 ^ (r + 1) % n := fun r => by
      rw [← Nat.pow_mod, ← sq, ← pow_mul, pow_succ' 2 r]
    rw [millerRabinSquares]
    by_cases h : x * x % n = n - 1
    · simp only [if_pos h, true_iff]
      exact ⟨1, le_rfl, by omega, by rw [pow_one, sq]; exact h⟩
    · simp only [if_neg h, ih, key]
      constructor
      · rintro ⟨r, h1, h2, h3⟩; exact ⟨r + 1, by omega, by omega, h3⟩
      · rintro ⟨r, h1, h2, h3⟩
        obtain ⟨q, rfl⟩ : ∃ q, r = q + 1 := ⟨r - 1, by omega⟩
        rcases Nat.eq_zero_or_pos q with rfl | hq
        · exact absurd (by simpa [sq] using h3) h
        · exact ⟨q, hq, by omega, h3⟩

end Sys2Proof.Machine
end

