-- ==== Sys2Proof/Laws/State.lean ====
section
/-!
SUPPORT. One lemma per field per setter, of State and of Env, and the fields of STATUS after each of its updates; all
true by rfl, so that no later proof unfolds a record update.
-/
namespace Sys2Proof.Machine

/-! ### State.setX -/

@[simp] theorem State.setX_params (s : State) (v : List (List OpWord)) : (s.setX v).params = s.params := rfl
@[simp] theorem State.setX_x (s : State) (v : List (List OpWord)) : (s.setX v).x = v := rfl
@[simp] theorem State.setX_ie (s : State) (v : List (List OpWord)) : (s.setX v).ie = s.ie := rfl
@[simp] theorem State.setX_status (s : State) (v : List (List OpWord)) : (s.setX v).status = s.status := rfl
@[simp] theorem State.setX_cfg (s : State) (v : List (List OpWord)) : (s.setX v).cfg = s.cfg := rfl
@[simp] theorem State.setX_cmd (s : State) (v : List (List OpWord)) : (s.setX v).cmd = s.cmd := rfl
@[simp] theorem State.setX_xsgn (s : State) (v : List (List OpWord)) : (s.setX v).xsgn = s.xsgn := rfl
@[simp] theorem State.setX_env (s : State) (v : List (List OpWord)) : (s.setX v).env = s.env := rfl

/-! ### State.setIe -/

@[simp] theorem State.setIe_params (s : State) (v : Bool) : (s.setIe v).params = s.params := rfl
@[simp] theorem State.setIe_x (s : State) (v : Bool) : (s.setIe v).x = s.x := rfl
@[simp] theorem State.setIe_ie (s : State) (v : Bool) : (s.setIe v).ie = v := rfl
@[simp] theorem State.setIe_status (s : State) (v : Bool) : (s.setIe v).status = s.status := rfl
@[simp] theorem State.setIe_cfg (s : State) (v : Bool) : (s.setIe v).cfg = s.cfg := rfl
@[simp] theorem State.setIe_cmd (s : State) (v : Bool) : (s.setIe v).cmd = s.cmd := rfl
@[simp] theorem State.setIe_xsgn (s : State) (v : Bool) : (s.setIe v).xsgn = s.xsgn := rfl
@[simp] theorem State.setIe_env (s : State) (v : Bool) : (s.setIe v).env = s.env := rfl

/-! ### State.setStatus -/

@[simp] theorem State.setStatus_params (s : State) (v : Status) : (s.setStatus v).params = s.params := rfl
@[simp] theorem State.setStatus_x (s : State) (v : Status) : (s.setStatus v).x = s.x := rfl
@[simp] theorem State.setStatus_ie (s : State) (v : Status) : (s.setStatus v).ie = s.ie := rfl
@[simp] theorem State.setStatus_status (s : State) (v : Status) : (s.setStatus v).status = v := rfl
@[simp] theorem State.setStatus_cfg (s : State) (v : Status) : (s.setStatus v).cfg = s.cfg := rfl
@[simp] theorem State.setStatus_cmd (s : State) (v : Status) : (s.setStatus v).cmd = s.cmd := rfl
@[simp] theorem State.setStatus_xsgn (s : State) (v : Status) : (s.setStatus v).xsgn = s.xsgn := rfl
@[simp] theorem State.setStatus_env (s : State) (v : Status) : (s.setStatus v).env = s.env := rfl

/-! ### State.setCfg -/

@[simp] theorem State.setCfg_params (s : State) (v : Cfg) : (s.setCfg v).params = s.params := rfl
@[simp] theorem State.setCfg_x (s : State) (v : Cfg) : (s.setCfg v).x = s.x := rfl
@[simp] theorem State.setCfg_ie (s : State) (v : Cfg) : (s.setCfg v).ie = s.ie := rfl
@[simp] theorem State.setCfg_status (s : State) (v : Cfg) : (s.setCfg v).status = s.status := rfl
@[simp] theorem State.setCfg_cfg (s : State) (v : Cfg) : (s.setCfg v).cfg = v := rfl
@[simp] theorem State.setCfg_cmd (s : State) (v : Cfg) : (s.setCfg v).cmd = s.cmd := rfl
@[simp] theorem State.setCfg_xsgn (s : State) (v : Cfg) : (s.setCfg v).xsgn = s.xsgn := rfl
@[simp] theorem State.setCfg_env (s : State) (v : Cfg) : (s.setCfg v).env = s.env := rfl

/-! ### State.setCmd -/

@[simp] theorem State.setCmd_params (s : State) (v : Word) : (s.setCmd v).params = s.params := rfl
@[simp] theorem State.setCmd_x (s : State) (v : Word) : (s.setCmd v).x = s.x := rfl
@[simp] theorem State.setCmd_ie (s : State) (v : Word) : (s.setCmd v).ie = s.ie := rfl
@[simp] theorem State.setCmd_status (s : State) (v : Word) : (s.setCmd v).status = s.status := rfl
@[simp] theorem State.setCmd_cfg (s : State) (v : Word) : (s.setCmd v).cfg = s.cfg := rfl
@[simp] theorem State.setCmd_cmd (s : State) (v : Word) : (s.setCmd v).cmd = v := rfl
@[simp] theorem State.setCmd_xsgn (s : State) (v : Word) : (s.setCmd v).xsgn = s.xsgn := rfl
@[simp] theorem State.setCmd_env (s : State) (v : Word) : (s.setCmd v).env = s.env := rfl

/-! ### State.setXsgn -/

@[simp] theorem State.setXsgn_params (s : State) (v : Xsgn) : (s.setXsgn v).params = s.params := rfl
@[simp] theorem State.setXsgn_x (s : State) (v : Xsgn) : (s.setXsgn v).x = s.x := rfl
@[simp] theorem State.setXsgn_ie (s : State) (v : Xsgn) : (s.setXsgn v).ie = s.ie := rfl
@[simp] theorem State.setXsgn_status (s : State) (v : Xsgn) : (s.setXsgn v).status = s.status := rfl
@[simp] theorem State.setXsgn_cfg (s : State) (v : Xsgn) : (s.setXsgn v).cfg = s.cfg := rfl
@[simp] theorem State.setXsgn_cmd (s : State) (v : Xsgn) : (s.setXsgn v).cmd = s.cmd := rfl
@[simp] theorem State.setXsgn_xsgn (s : State) (v : Xsgn) : (s.setXsgn v).xsgn = v := rfl
@[simp] theorem State.setXsgn_env (s : State) (v : Xsgn) : (s.setXsgn v).env = s.env := rfl

/-! ### State.setEnv -/

@[simp] theorem State.setEnv_params (s : State) (v : Env) : (s.setEnv v).params = s.params := rfl
@[simp] theorem State.setEnv_x (s : State) (v : Env) : (s.setEnv v).x = s.x := rfl
@[simp] theorem State.setEnv_ie (s : State) (v : Env) : (s.setEnv v).ie = s.ie := rfl
@[simp] theorem State.setEnv_status (s : State) (v : Env) : (s.setEnv v).status = s.status := rfl
@[simp] theorem State.setEnv_cfg (s : State) (v : Env) : (s.setEnv v).cfg = s.cfg := rfl
@[simp] theorem State.setEnv_cmd (s : State) (v : Env) : (s.setEnv v).cmd = s.cmd := rfl
@[simp] theorem State.setEnv_xsgn (s : State) (v : Env) : (s.setEnv v).xsgn = s.xsgn := rfl
@[simp] theorem State.setEnv_env (s : State) (v : Env) : (s.setEnv v).env = v := rfl

/-! ### Env.setHost -/

@[simp] theorem Env.setHost_host (e : Env) (v : List HostOp) : (e.setHost v).host = v := rfl
@[simp] theorem Env.setHost_hold (e : Env) (v : List HostOp) : (e.setHost v).hold = e.hold := rfl
@[simp] theorem Env.setHost_issues (e : Env) (v : List HostOp) : (e.setHost v).issues = e.issues := rfl
@[simp] theorem Env.setHost_entropy (e : Env) (v : List HostOp) : (e.setHost v).entropy = e.entropy := rfl
@[simp] theorem Env.setHost_ramDraws (e : Env) (v : List HostOp) : (e.setHost v).ramDraws = e.ramDraws := rfl
@[simp] theorem Env.setHost_rdata (e : Env) (v : List HostOp) : (e.setHost v).rdata = e.rdata := rfl
@[simp] theorem Env.setHost_unwritten (e : Env) (v : List HostOp) : (e.setHost v).unwritten = e.unwritten := rfl

/-! ### Env.setHold -/

@[simp] theorem Env.setHold_host (e : Env) (v : Nat) : (e.setHold v).host = e.host := rfl
@[simp] theorem Env.setHold_hold (e : Env) (v : Nat) : (e.setHold v).hold = v := rfl
@[simp] theorem Env.setHold_issues (e : Env) (v : Nat) : (e.setHold v).issues = e.issues := rfl
@[simp] theorem Env.setHold_entropy (e : Env) (v : Nat) : (e.setHold v).entropy = e.entropy := rfl
@[simp] theorem Env.setHold_ramDraws (e : Env) (v : Nat) : (e.setHold v).ramDraws = e.ramDraws := rfl
@[simp] theorem Env.setHold_rdata (e : Env) (v : Nat) : (e.setHold v).rdata = e.rdata := rfl
@[simp] theorem Env.setHold_unwritten (e : Env) (v : Nat) : (e.setHold v).unwritten = e.unwritten := rfl

/-! ### Env.setEntropy -/

@[simp] theorem Env.setEntropy_host (e : Env) (v : EntropySource) : (e.setEntropy v).host = e.host := rfl
@[simp] theorem Env.setEntropy_hold (e : Env) (v : EntropySource) : (e.setEntropy v).hold = e.hold := rfl
@[simp] theorem Env.setEntropy_issues (e : Env) (v : EntropySource) : (e.setEntropy v).issues = e.issues := rfl
@[simp] theorem Env.setEntropy_entropy (e : Env) (v : EntropySource) : (e.setEntropy v).entropy = v := rfl
@[simp] theorem Env.setEntropy_ramDraws (e : Env) (v : EntropySource) : (e.setEntropy v).ramDraws = e.ramDraws := rfl
@[simp] theorem Env.setEntropy_rdata (e : Env) (v : EntropySource) : (e.setEntropy v).rdata = e.rdata := rfl
@[simp] theorem Env.setEntropy_unwritten (e : Env) (v : EntropySource) : (e.setEntropy v).unwritten = e.unwritten := rfl

/-! ### Env.setRdata -/

@[simp] theorem Env.setRdata_host (e : Env) (v : Word) : (e.setRdata v).host = e.host := rfl
@[simp] theorem Env.setRdata_hold (e : Env) (v : Word) : (e.setRdata v).hold = e.hold := rfl
@[simp] theorem Env.setRdata_issues (e : Env) (v : Word) : (e.setRdata v).issues = e.issues := rfl
@[simp] theorem Env.setRdata_entropy (e : Env) (v : Word) : (e.setRdata v).entropy = e.entropy := rfl
@[simp] theorem Env.setRdata_ramDraws (e : Env) (v : Word) : (e.setRdata v).ramDraws = e.ramDraws := rfl
@[simp] theorem Env.setRdata_rdata (e : Env) (v : Word) : (e.setRdata v).rdata = v := rfl
@[simp] theorem Env.setRdata_unwritten (e : Env) (v : Word) : (e.setRdata v).unwritten = e.unwritten := rfl

/-! ### Env.countRamDraw -/

@[simp] theorem Env.countRamDraw_host (e : Env) : (e.countRamDraw).host = e.host := rfl
@[simp] theorem Env.countRamDraw_hold (e : Env) : (e.countRamDraw).hold = e.hold := rfl
@[simp] theorem Env.countRamDraw_issues (e : Env) : (e.countRamDraw).issues = e.issues := rfl
@[simp] theorem Env.countRamDraw_entropy (e : Env) : (e.countRamDraw).entropy = e.entropy := rfl
@[simp] theorem Env.countRamDraw_ramDraws (e : Env) : (e.countRamDraw).ramDraws = e.ramDraws + 1 := rfl
@[simp] theorem Env.countRamDraw_rdata (e : Env) : (e.countRamDraw).rdata = e.rdata := rfl
@[simp] theorem Env.countRamDraw_unwritten (e : Env) : (e.countRamDraw).unwritten = e.unwritten := rfl

/-! ### Env.markUnwritten -/

@[simp] theorem Env.markUnwritten_host (e : Env) : (e.markUnwritten).host = e.host := rfl
@[simp] theorem Env.markUnwritten_hold (e : Env) : (e.markUnwritten).hold = e.hold := rfl
@[simp] theorem Env.markUnwritten_issues (e : Env) : (e.markUnwritten).issues = e.issues := rfl
@[simp] theorem Env.markUnwritten_entropy (e : Env) : (e.markUnwritten).entropy = e.entropy := rfl
@[simp] theorem Env.markUnwritten_ramDraws (e : Env) : (e.markUnwritten).ramDraws = e.ramDraws := rfl
@[simp] theorem Env.markUnwritten_rdata (e : Env) : (e.markUnwritten).rdata = e.rdata := rfl
@[simp] theorem Env.markUnwritten_unwritten (e : Env) : (e.markUnwritten).unwritten = true := rfl

/-! ### Env.drawLatency -/

@[simp] theorem Env.drawLatency_host (e : Env) : (e.drawLatency).host = e.host := rfl
@[simp] theorem Env.drawLatency_hold (e : Env) : (e.drawLatency).hold = Config.latency e.issues := rfl
@[simp] theorem Env.drawLatency_issues (e : Env) : (e.drawLatency).issues = e.issues + 1 := rfl
@[simp] theorem Env.drawLatency_entropy (e : Env) : (e.drawLatency).entropy = e.entropy := rfl
@[simp] theorem Env.drawLatency_ramDraws (e : Env) : (e.drawLatency).ramDraws = e.ramDraws := rfl
@[simp] theorem Env.drawLatency_rdata (e : Env) : (e.drawLatency).rdata = e.rdata := rfl
@[simp] theorem Env.drawLatency_unwritten (e : Env) : (e.drawLatency).unwritten = e.unwritten := rfl

/-! ### State.issue -/

@[simp] theorem State.issue_params (s : State) (w : Word) : (s.issue w).params = s.params := rfl
@[simp] theorem State.issue_x (s : State) (w : Word) : (s.issue w).x = s.x := rfl
@[simp] theorem State.issue_ie (s : State) (w : Word) : (s.issue w).ie = s.ie := rfl
@[simp] theorem State.issue_status (s : State) (w : Word) : (s.issue w).status = s.status.issued := rfl
@[simp] theorem State.issue_cfg (s : State) (w : Word) : (s.issue w).cfg = s.cfg := rfl
@[simp] theorem State.issue_cmd (s : State) (w : Word) : (s.issue w).cmd = w := rfl
@[simp] theorem State.issue_xsgn (s : State) (w : Word) : (s.issue w).xsgn = s.xsgn := rfl
@[simp] theorem State.issue_env (s : State) (w : Word) : (s.issue w).env = s.env.drawLatency := rfl

/-! ### Status.issued -/

@[simp] theorem Status.issued_busy (t : Status) : (t.issued).busy = true := rfl
@[simp] theorem Status.issued_done (t : Status) : (t.issued).done = false := rfl
@[simp] theorem Status.issued_res (t : Status) : (t.issued).res = false := rfl
@[simp] theorem Status.issued_ovr (t : Status) : (t.issued).ovr = t.ovr := rfl
@[simp] theorem Status.issued_accerr (t : Status) : (t.issued).accerr = t.accerr := rfl
@[simp] theorem Status.issued_errcode (t : Status) : (t.issued).errcode = .ok := rfl

/-! ### Status.completed -/

@[simp] theorem Status.completed_busy (c : ErrCode) (b : Bool) (t : Status) : (t.completed c b).busy = false := rfl
@[simp] theorem Status.completed_done (c : ErrCode) (b : Bool) (t : Status) : (t.completed c b).done = true := rfl
@[simp] theorem Status.completed_res (c : ErrCode) (b : Bool) (t : Status) : (t.completed c b).res = b := rfl
@[simp] theorem Status.completed_ovr (c : ErrCode) (b : Bool) (t : Status) : (t.completed c b).ovr = t.ovr := rfl
@[simp] theorem Status.completed_accerr (c : ErrCode) (b : Bool) (t : Status) : (t.completed c b).accerr = t.accerr := rfl
@[simp] theorem Status.completed_errcode (c : ErrCode) (b : Bool) (t : Status) : (t.completed c b).errcode = c := rfl

/-! ### Status.overrun -/

@[simp] theorem Status.overrun_busy (t : Status) : (t.overrun).busy = t.busy := rfl
@[simp] theorem Status.overrun_done (t : Status) : (t.overrun).done = t.done := rfl
@[simp] theorem Status.overrun_res (t : Status) : (t.overrun).res = t.res := rfl
@[simp] theorem Status.overrun_ovr (t : Status) : (t.overrun).ovr = true := rfl
@[simp] theorem Status.overrun_accerr (t : Status) : (t.overrun).accerr = t.accerr := rfl
@[simp] theorem Status.overrun_errcode (t : Status) : (t.overrun).errcode = t.errcode := rfl

/-! ### Status.accessError -/

@[simp] theorem Status.accessError_busy (t : Status) : (t.accessError).busy = t.busy := rfl
@[simp] theorem Status.accessError_done (t : Status) : (t.accessError).done = t.done := rfl
@[simp] theorem Status.accessError_res (t : Status) : (t.accessError).res = t.res := rfl
@[simp] theorem Status.accessError_ovr (t : Status) : (t.accessError).ovr = t.ovr := rfl
@[simp] theorem Status.accessError_accerr (t : Status) : (t.accessError).accerr = true := rfl
@[simp] theorem Status.accessError_errcode (t : Status) : (t.accessError).errcode = t.errcode := rfl

/-! ### Status.writeOneToClear -/

@[simp] theorem Status.writeOneToClear_busy (v : Word) (t : Status) : (t.writeOneToClear v).busy = t.busy := rfl
@[simp] theorem Status.writeOneToClear_done (v : Word) (t : Status) : (t.writeOneToClear v).done = (t.done && !v.getLsbD 1) := rfl
@[simp] theorem Status.writeOneToClear_res (v : Word) (t : Status) : (t.writeOneToClear v).res = t.res := rfl
@[simp] theorem Status.writeOneToClear_ovr (v : Word) (t : Status) : (t.writeOneToClear v).ovr = (t.ovr && !v.getLsbD 4) := rfl
@[simp] theorem Status.writeOneToClear_accerr (v : Word) (t : Status) : (t.writeOneToClear v).accerr = (t.accerr && !v.getLsbD 5) := rfl
@[simp] theorem Status.writeOneToClear_errcode (v : Word) (t : Status) : (t.writeOneToClear v).errcode = t.errcode := rfl

/-! ### The state after a reset -/

@[simp] theorem State.resetWith_params (p : Params) (e : Env) : (State.resetWith p e).params = p := rfl
@[simp] theorem State.resetWith_x (p : Params) (e : Env) : (State.resetWith p e).x = List.replicate p.nreg (List.replicate p.words OpWord.atReset) := rfl
@[simp] theorem State.resetWith_ie (p : Params) (e : Env) : (State.resetWith p e).ie = false := rfl
@[simp] theorem State.resetWith_status (p : Params) (e : Env) : (State.resetWith p e).status = Status.atReset := rfl
@[simp] theorem State.resetWith_cfg (p : Params) (e : Env) : (State.resetWith p e).cfg = { mrRounds := p.mrRoundsReset, tdEn := true } := rfl
@[simp] theorem State.resetWith_cmd (p : Params) (e : Env) : (State.resetWith p e).cmd = 0 := rfl
@[simp] theorem State.resetWith_xsgn (p : Params) (e : Env) : (State.resetWith p e).xsgn = { sNeg := false, tNeg := false } := rfl
@[simp] theorem State.resetWith_env (p : Params) (e : Env) : (State.resetWith p e).env = e := rfl

end Sys2Proof.Machine
end

