-- ==== Sys2Proof/Laws/Operands.lean ====
section
/-!
SUPPORT. The operand file: what a register's words are worth, what a register write and a word write do to every other
register, and that both keep the file's form.
-/
namespace Sys2Proof.Machine

/-! ### Words and values -/

@[simp] theorem wordsOf_length : ∀ k v, (wordsOf k v).length = k := by
  intro k
  induction k with
  | zero => intro v; rfl
  | succ k ih => intro v; simp [wordsOf, ih]

theorem wordsOf_written : ∀ k v, ∀ w ∈ wordsOf k v, w.written = true := by
  intro k
  induction k with
  | zero => intro v w hw; cases hw
  | succ k ih =>
    intro v w hw
    rcases List.mem_cons.mp hw with rfl | hw
    · rfl
    · exact ih _ w hw

/-- Writing v and reading it back gives v mod 2^(32k), whatever the draws are. -/
theorem wordsValue_wordsOf (draw i : Nat) : ∀ k j v, wordsValue draw i j (wordsOf k v) = v % 2 ^ (32 * k) := by
  intro k
  induction k with
  | zero => intro j v; simp [wordsOf, wordsValue, Nat.mod_one]
  | succ k ih =>
    intro j v
    simp only [wordsOf, wordsValue, ih, OpWord.value, if_true, BitVec.toNat_ofNat]
    rw [show 32 * (k + 1) = 32 + 32 * k by ring, pow_add, Nat.mod_mul]

/-- k words are worth less than 2^(32k). -/
theorem wordsValue_lt (draw i : Nat) : ∀ ws j, wordsValue draw i j ws < 2 ^ (32 * ws.length) := by
  intro ws
  induction ws with
  | nil => intro j; simp [wordsValue]
  | cons w ws ih =>
    intro j
    have h1 := (w.value draw i j).isLt
    have h2 := ih (j + 1)
    rw [List.length_cons, show 32 * (ws.length + 1) = 32 + 32 * ws.length by ring, pow_add]
    simp only [wordsValue]
    calc (w.value draw i j).toNat + 2 ^ 32 * wordsValue draw i (j + 1) ws
        < 2 ^ 32 + 2 ^ 32 * wordsValue draw i (j + 1) ws := by omega
      _ = 2 ^ 32 * (wordsValue draw i (j + 1) ws + 1) := by ring
      _ ≤ 2 ^ 32 * 2 ^ (32 * ws.length) := Nat.mul_le_mul_left _ h2

/-- Where every word is defined the draw plays no part. -/
theorem wordsValue_defined (d d' i : Nat) : ∀ ws j, ws.all OpWord.written = true →
    wordsValue d i j ws = wordsValue d' i j ws := by
  intro ws
  induction ws with
  | nil => intro j _; rfl
  | cons w ws ih =>
    intro j h
    simp only [List.all_cons, Bool.and_eq_true] at h
    simp only [wordsValue, ih (j + 1) h.2, OpWord.value, h.1, if_true]

/-! ### Register writes -/

@[simp] theorem State.writeReg_params (s : State) (r : RegIdx) (v : Nat) : (s.writeReg r v).params = s.params := rfl
@[simp] theorem State.writeReg_ie (s : State) (r : RegIdx) (v : Nat) : (s.writeReg r v).ie = s.ie := rfl
@[simp] theorem State.writeReg_status (s : State) (r : RegIdx) (v : Nat) : (s.writeReg r v).status = s.status := rfl
@[simp] theorem State.writeReg_cfg (s : State) (r : RegIdx) (v : Nat) : (s.writeReg r v).cfg = s.cfg := rfl
@[simp] theorem State.writeReg_cmd (s : State) (r : RegIdx) (v : Nat) : (s.writeReg r v).cmd = s.cmd := rfl
@[simp] theorem State.writeReg_xsgn (s : State) (r : RegIdx) (v : Nat) : (s.writeReg r v).xsgn = s.xsgn := rfl
@[simp] theorem State.writeReg_env (s : State) (r : RegIdx) (v : Nat) : (s.writeReg r v).env = s.env := rfl
@[simp] theorem State.writeReg_x (s : State) (r : RegIdx) (v : Nat) :
    (s.writeReg r v).x = s.x.set r.toNat (wordsOf s.params.words v) := rfl

/-- A register write leaves every other register alone. -/
theorem State.writeReg_reg_ne (s : State) (r : RegIdx) (v i : Nat) (h : r.toNat ≠ i) :
    (s.writeReg r v).reg i = s.reg i := by
  simp [State.reg, List.getD_eq_getElem?_getD, List.getElem?_set_ne h]

/-- A register write to a register that exists gives it exactly the words of v. -/
theorem State.writeReg_reg_eq (s : State) (r : RegIdx) (v : Nat) (h : r.toNat < s.x.length) :
    (s.writeReg r v).reg r.toNat = wordsOf s.params.words v := by
  simp [State.reg, List.getD_eq_getElem?_getD, h]

/-! ### The form of the file -/

/-- The form of one register. -/
def regWf (k : Nat) (r : List OpWord) : Bool :=
  r.length == k && r.all (fun w => w.written || w.val == OpWord.atReset.val)

theorem State.fileWf_iff (s : State) :
    s.fileWf = true ↔ s.x.length = s.params.nreg ∧ ∀ r ∈ s.x, regWf s.params.words r = true := by
  simp [State.fileWf, regWf]

theorem regWf_wordsOf (k v : Nat) : regWf k (wordsOf k v) = true := by
  simp only [regWf, wordsOf_length, beq_self_eq_true, Bool.true_and, List.all_eq_true]
  intro w hw
  simp [wordsOf_written k v w hw]

theorem regWf_set (k j : Nat) (v : Word) (r : List OpWord) (h : regWf k r = true) :
    regWf k (r.set j { val := v, written := true }) = true := by
  simp only [regWf, Bool.and_eq_true, beq_iff_eq, List.all_eq_true] at h ⊢
  refine ⟨by simpa using h.1, fun w hw => ?_⟩
  rcases List.mem_or_eq_of_mem_set hw with hw | rfl
  · exact h.2 w hw
  · rfl

theorem State.length_reg (s : State) (h : s.fileWf = true) (i : Nat) (hi : i < s.params.nreg) :
    (s.reg i).length = s.params.words := by
  obtain ⟨hl, hr⟩ := s.fileWf_iff.mp h
  have hlt : i < s.x.length := hl ▸ hi
  have := hr s.x[i] (List.getElem_mem hlt)
  simp only [regWf, Bool.and_eq_true, beq_iff_eq] at this
  simpa [State.reg, List.getD_eq_getElem?_getD, hlt] using this.1

/-- Setting a register to words of the right form keeps the file's form. -/
theorem State.setX_set_fileWf (s : State) (i : Nat) (ws : List OpWord) (h : s.fileWf = true)
    (hw : i < s.x.length → regWf s.params.words ws = true) : (s.setX (s.x.set i ws)).fileWf = true := by
  rw [State.fileWf_iff] at h ⊢
  refine ⟨by simpa using h.1, fun r hr => ?_⟩
  by_cases hi : i < s.x.length
  · rcases List.mem_or_eq_of_mem_set hr with hr | rfl
    · exact h.2 r hr
    · exact hw hi
  · rw [State.setX_x, List.set_eq_of_length_le (by omega)] at hr
    exact h.2 r hr

theorem State.writeReg_fileWf (s : State) (r : RegIdx) (v : Nat) (h : s.fileWf = true) :
    (s.writeReg r v).fileWf = true :=
  s.setX_set_fileWf _ _ h fun _ => regWf_wordsOf _ _

theorem State.writeWord_fileWf (s : State) (i j : Nat) (v : Word) (h : s.fileWf = true) :
    (s.writeWord i j v).fileWf = true := by
  refine s.setX_set_fileWf _ _ h fun hi => regWf_set _ _ _ _ ?_
  have := (s.fileWf_iff.mp h).2 s.x[i] (List.getElem_mem hi)
  simpa [State.reg, List.getD_eq_getElem?_getD, hi] using this

/-- An operand of a block in form is below 2^NBITS (R9). -/
theorem State.operand_lt (s : State) (r : RegIdx) (h : s.fileWf = true) (hr : r.toNat < s.params.nreg) :
    s.operand r < 2 ^ (32 * s.params.words) := by
  have := wordsValue_lt s.env.ramDraws r.toNat (s.reg r.toNat) 0
  rwa [s.length_reg h _ hr] at this

/-- R67: a word write gives that word and leaves every other word alone. -/
theorem State.writeWord_word (s : State) (i j k l : Nat) (v : Word) (hi : i < s.x.length) (hj : j < (s.reg i).length) :
    (s.writeWord i j v).word k l = if k = i ∧ l = j then { val := v, written := true } else s.word k l := by
  by_cases hk : k = i
  · subst hk
    have hreg : (s.writeWord k j v).reg k = (s.reg k).set j { val := v, written := true } := by
      simp [State.writeWord, State.reg, List.getD_eq_getElem?_getD, hi]
    by_cases hl : l = j
    · subst hl
      simp [State.word, hreg, List.getD_eq_getElem?_getD, hj]
    · simp [State.word, hreg, List.getD_eq_getElem?_getD, List.getElem?_set_ne (Ne.symm hl), hl]
  · have hreg : (s.writeWord i j v).reg k = s.reg k := by
      simp [State.writeWord, State.reg, List.getD_eq_getElem?_getD, List.getElem?_set_ne (Ne.symm hk)]
    simp [State.word, hreg, hk]

end Sys2Proof.Machine
end

