-- ==== Sys2Proof/Laws/Ops.lean ====
section
/-!
SUPPORT. What each shared operation does, said once: the writes of a commit, the commit, the note of a read, the end of a
command, abort and reset; and that each keeps the form of the operand file and of STATUS.
-/
namespace Sys2Proof.Machine

/-! ### The writes of a commit -/

@[simp] theorem State.writeRegs_params (ws : List (RegIdx × Nat)) (s : State) : (s.writeRegs ws).params = s.params := by
  induction ws generalizing s with
  | nil => rfl
  | cons w ws ih => exact (ih _).trans rfl
@[simp] theorem State.writeRegs_ie (ws : List (RegIdx × Nat)) (s : State) : (s.writeRegs ws).ie = s.ie := by
  induction ws generalizing s with
  | nil => rfl
  | cons w ws ih => exact (ih _).trans rfl
@[simp] theorem State.writeRegs_status (ws : List (RegIdx × Nat)) (s : State) : (s.writeRegs ws).status = s.status := by
  induction ws generalizing s with
  | nil => rfl
  | cons w ws ih => exact (ih _).trans rfl
@[simp] theorem State.writeRegs_cfg (ws : List (RegIdx × Nat)) (s : State) : (s.writeRegs ws).cfg = s.cfg := by
  induction ws generalizing s with
  | nil => rfl
  | cons w ws ih => exact (ih _).trans rfl
@[simp] theorem State.writeRegs_cmd (ws : List (RegIdx × Nat)) (s : State) : (s.writeRegs ws).cmd = s.cmd := by
  induction ws generalizing s with
  | nil => rfl
  | cons w ws ih => exact (ih _).trans rfl
@[simp] theorem State.writeRegs_xsgn (ws : List (RegIdx × Nat)) (s : State) : (s.writeRegs ws).xsgn = s.xsgn := by
  induction ws generalizing s with
  | nil => rfl
  | cons w ws ih => exact (ih _).trans rfl
@[simp] theorem State.writeRegs_env (ws : List (RegIdx × Nat)) (s : State) : (s.writeRegs ws).env = s.env := by
  induction ws generalizing s with
  | nil => rfl
  | cons w ws ih => exact (ih _).trans rfl

/-- The writes of a commit leave every register they do not name alone. -/
theorem State.writeRegs_reg_ne (ws : List (RegIdx × Nat)) (s : State) (i : Nat) (h : ∀ w ∈ ws, w.1.toNat ≠ i) :
    (s.writeRegs ws).reg i = s.reg i := by
  induction ws generalizing s with
  | nil => rfl
  | cons w ws ih =>
    exact (ih _ fun v hv => h v (List.mem_cons_of_mem _ hv)).trans (s.writeReg_reg_ne _ _ _ (h w List.mem_cons_self))

theorem State.writeRegs_length (ws : List (RegIdx × Nat)) (s : State) : (s.writeRegs ws).x.length = s.x.length := by
  induction ws generalizing s with
  | nil => rfl
  | cons w ws ih => exact (ih _).trans (by simp)

theorem State.writeRegs_fileWf (ws : List (RegIdx × Nat)) (s : State) (h : s.fileWf = true) :
    (s.writeRegs ws).fileWf = true := by
  induction ws generalizing s with
  | nil => exact h
  | cons w ws ih => exact ih _ (s.writeReg_fileWf _ _ h)

/-! ### The commit (R86, R87) -/

@[simp] theorem State.commitSigns_x (s : State) (g : Option Xsgn) : (s.commitSigns g).x = s.x := by cases g <;> rfl
@[simp] theorem State.commitSigns_params (s : State) (g : Option Xsgn) : (s.commitSigns g).params = s.params := by
  cases g <;> rfl
@[simp] theorem State.commitSigns_ie (s : State) (g : Option Xsgn) : (s.commitSigns g).ie = s.ie := by cases g <;> rfl
@[simp] theorem State.commitSigns_cfg (s : State) (g : Option Xsgn) : (s.commitSigns g).cfg = s.cfg := by cases g <;> rfl
@[simp] theorem State.commitSigns_cmd (s : State) (g : Option Xsgn) : (s.commitSigns g).cmd = s.cmd := by cases g <;> rfl
@[simp] theorem State.commitSigns_env (s : State) (g : Option Xsgn) : (s.commitSigns g).env = s.env := by cases g <;> rfl

/-- The code a result carries. -/
def CmdResult.code : CmdResult → ErrCode
  | .ok _ _ _ => .ok
  | .err c => c

/-- The Boolean result a result carries; 0 for an error (R86). -/
def CmdResult.flag : CmdResult → Bool
  | .ok _ b _ => b
  | .err _ => false

/-- The writes a result carries; none for an error (R87). -/
def CmdResult.writes : CmdResult → List (RegIdx × Nat)
  | .ok ws _ _ => ws
  | .err _ => []

@[simp] theorem State.commit_params (s : State) (r : CmdResult) : (s.commit r).params = s.params := by
  cases r <;> simp [State.commit]
@[simp] theorem State.commit_ie (s : State) (r : CmdResult) : (s.commit r).ie = s.ie := by
  cases r <;> simp [State.commit]
@[simp] theorem State.commit_cfg (s : State) (r : CmdResult) : (s.commit r).cfg = s.cfg := by
  cases r <;> simp [State.commit]
@[simp] theorem State.commit_cmd (s : State) (r : CmdResult) : (s.commit r).cmd = s.cmd := by
  cases r <;> simp [State.commit]
@[simp] theorem State.commit_env (s : State) (r : CmdResult) : (s.commit r).env = s.env := by
  cases r <;> simp [State.commit]
@[simp] theorem State.commit_status (s : State) (r : CmdResult) :
    (s.commit r).status = s.status.completed r.code r.flag := by
  cases r <;> simp [State.commit, CmdResult.code, CmdResult.flag]
@[simp] theorem State.commit_x (s : State) (r : CmdResult) : (s.commit r).x = (s.writeRegs r.writes).x := by
  cases r <;> simp [State.commit, CmdResult.writes, State.writeRegs]
@[simp] theorem State.commit_err_xsgn (s : State) (c : ErrCode) : (s.commit (.err c)).xsgn = s.xsgn := rfl
theorem State.commit_ok_xsgn (s : State) (ws : List (RegIdx × Nat)) (b : Bool) (g : Option Xsgn) :
    (s.commit (.ok ws b g)).xsgn = g.getD s.xsgn := by
  cases g <;> simp [State.commit, State.commitSigns]

/-- Only x and params make the form of the file. -/
theorem State.fileWf_congr (s t : State) (hx : t.x = s.x) (hp : t.params = s.params) : t.fileWf = s.fileWf := by
  simp [State.fileWf, hx, hp]

theorem State.commit_fileWf (s : State) (r : CmdResult) (h : s.fileWf = true) : (s.commit r).fileWf = true := by
  rw [State.fileWf_congr (s.writeRegs r.writes) _ (by simp) (by simp)]
  exact s.writeRegs_fileWf _ h

/-- A commit leaves every register it does not write alone. -/
theorem State.commit_reg_ne (s : State) (r : CmdResult) (i : Nat) (h : ∀ w ∈ r.writes, w.1.toNat ≠ i) :
    (s.commit r).reg i = s.reg i := by
  have : (s.commit r).reg i = (s.writeRegs r.writes).reg i := by simp [State.reg]
  rw [this, s.writeRegs_reg_ne _ _ h]

/-! ### The note of a read (R25) -/

/-- The note of a read changes nothing but the model's bookkeeping. -/
theorem State.noteReads_cases (s : State) (rs : List RegIdx) :
    (rs.all s.operandDefined = true ∧ s.noteReads rs = s)
      ∨ (rs.all s.operandDefined = false ∧ s.noteReads rs = s.setEnv s.env.countRamDraw.markUnwritten) := by
  unfold State.noteReads
  cases h : rs.all s.operandDefined <;> simp

@[simp] theorem State.noteReads_params (s : State) (rs : List RegIdx) : (s.noteReads rs).params = s.params := by
  unfold State.noteReads; split <;> rfl
@[simp] theorem State.noteReads_x (s : State) (rs : List RegIdx) : (s.noteReads rs).x = s.x := by
  unfold State.noteReads; split <;> rfl
@[simp] theorem State.noteReads_ie (s : State) (rs : List RegIdx) : (s.noteReads rs).ie = s.ie := by
  unfold State.noteReads; split <;> rfl
@[simp] theorem State.noteReads_status (s : State) (rs : List RegIdx) : (s.noteReads rs).status = s.status := by
  unfold State.noteReads; split <;> rfl
@[simp] theorem State.noteReads_cfg (s : State) (rs : List RegIdx) : (s.noteReads rs).cfg = s.cfg := by
  unfold State.noteReads; split <;> rfl
@[simp] theorem State.noteReads_cmd (s : State) (rs : List RegIdx) : (s.noteReads rs).cmd = s.cmd := by
  unfold State.noteReads; split <;> rfl
@[simp] theorem State.noteReads_xsgn (s : State) (rs : List RegIdx) : (s.noteReads rs).xsgn = s.xsgn := by
  unfold State.noteReads; split <;> rfl
@[simp] theorem State.noteReads_reg (s : State) (rs : List RegIdx) (i : Nat) : (s.noteReads rs).reg i = s.reg i := by
  simp [State.reg]
@[simp] theorem State.noteReads_unwritten (s : State) (rs : List RegIdx) :
    (s.noteReads rs).env.unwritten = (s.env.unwritten || !rs.all s.operandDefined) := by
  rcases s.noteReads_cases rs with ⟨h, e⟩ | ⟨h, e⟩ <;> simp [e, h]

/-! ### The end of a command (R86, R190) -/

/-- What the end of a command does: ILLEGAL and nothing else, or the note of its reads and the commit. -/
theorem State.finish_cases (s : State) (i : Instr) (r : CmdResult) :
    (s.legal i = false ∧ s.finish i r = s.commit (.err .illegal))
      ∨ (s.legal i = true ∧ s.finish i r = (s.noteReads (sources i)).commit r) := by
  unfold State.finish
  cases h : s.legal i <;> simp

@[simp] theorem State.finish_params (s : State) (i : Instr) (r : CmdResult) : (s.finish i r).params = s.params := by
  unfold State.finish; split <;> simp
@[simp] theorem State.finish_ie (s : State) (i : Instr) (r : CmdResult) : (s.finish i r).ie = s.ie := by
  unfold State.finish; split <;> simp
@[simp] theorem State.finish_cfg (s : State) (i : Instr) (r : CmdResult) : (s.finish i r).cfg = s.cfg := by
  unfold State.finish; split <;> simp
@[simp] theorem State.finish_cmd (s : State) (i : Instr) (r : CmdResult) : (s.finish i r).cmd = s.cmd := by
  unfold State.finish; split <;> simp
theorem State.finish_status (s : State) (i : Instr) (r : CmdResult) :
    (s.finish i r).status =
      if s.legal i then s.status.completed r.code r.flag else s.status.completed .illegal false := by
  unfold State.finish; split <;> simp [CmdResult.code, CmdResult.flag]
theorem State.finish_fileWf (s : State) (i : Instr) (r : CmdResult) (h : s.fileWf = true) :
    (s.finish i r).fileWf = true := by
  unfold State.finish
  split
  · exact State.commit_fileWf _ _ ((State.fileWf_congr s _ (by simp) (by simp)).trans h)
  · exact State.commit_fileWf _ _ h
/-- A command leaves every register outside the writes of its result alone. -/
theorem State.finish_reg_ne (s : State) (i : Instr) (r : CmdResult) (k : Nat) (h : ∀ w ∈ r.writes, w.1.toNat ≠ k) :
    (s.finish i r).reg k = s.reg k := by
  unfold State.finish
  split
  · rw [State.commit_reg_ne _ _ _ h, State.noteReads_reg]
  · exact State.commit_reg_ne _ _ _ (by simp [CmdResult.writes])

/-! ### Abort and reset -/

theorem State.abort_eq (s : State) : s.abort = s.setStatus (s.status.completed .aborted false) := rfl

theorem State.resetBlock_eq (s : State) : s.resetBlock = State.resetWith s.params s.env := rfl

theorem State.resetWith_fileWf (p : Params) (e : Env) : (State.resetWith p e).fileWf = true := by
  rw [State.fileWf_iff]
  refine ⟨by simp, fun r hr => ?_⟩
  obtain ⟨-, rfl⟩ : _ ∧ r = List.replicate p.words OpWord.atReset := by simpa using hr
  simp [regWf]

/-! ### STATUS keeps its form -/

theorem Status.wf_completed (t : Status) (c : ErrCode) (b : Bool) (h : c = .ok ∨ b = false) :
    (t.completed c b).wf = true := by
  rcases h with rfl | rfl <;> simp [Status.wf, Status.completed]

theorem Status.wf_issued (t : Status) : t.issued.wf = true := by simp [Status.wf]

theorem Status.wf_overrun (t : Status) (h : t.wf = true) : t.overrun.wf = true := by simpa [Status.wf] using h

theorem Status.wf_accessError (t : Status) (h : t.wf = true) : t.accessError.wf = true := by
  simpa [Status.wf] using h

theorem Status.wf_writeOneToClear (t : Status) (v : Word) (h : t.wf = true) : (t.writeOneToClear v).wf = true := by
  revert h
  simp only [Status.wf, Status.writeOneToClear]
  cases t.busy <;> cases t.done <;> cases t.res <;> simp

/-- What a result that is no error, or an error without a flag, leaves in STATUS is in form. -/
theorem CmdResult.code_flag (r : CmdResult) : r.code = .ok ∨ r.flag = false := by cases r <;> simp [code, flag]

end Sys2Proof.Machine
end

