-- ==== Sys2Proof/Laws/Commands.lean ====
section
/-!
SUPPORT. What every command does, said once: exec answers the end of the command with the result of its `execute`; what
that result writes, and which codes it can carry.
-/
namespace Sys2Proof.Machine

/-- The result of `execute` for a command on a state. -/
def resultOf (s : State) : Instr → CmdResult
  | .nop => .ok [] false none
  | .modmul rd rs1 rs2 rs3 => modmulResult rd (s.operand rs1) (s.operand rs2) (s.operand rs3)
  | .modexp rd rs1 rs2 rs3 => modexpResult rd (s.operand rs1) (s.operand rs2) (s.operand rs3)
  | .xgcd rd rs1 rs2 rd2 rd3 => xgcdResult rd rd2 rd3 (s.operand rs1) (s.operand rs2)
  | .modinv rd rs1 rs2 => modinvResult rd (s.operand rs1) (s.operand rs2)
  | .tdiv rs1 => .ok [] (trialDivision s.params.tdLimit (s.operand rs1)) none
  | .mrround rs1 rs2 => mrroundResult (s.operand rs1) (s.operand rs2)
  | .primetest rs1 => primetestResult (primeTest s.params s.cfg (s.operand rs1) s.env.entropy).1

/-- The state once the command's entropy words are consumed. -/
def afterDraws (s : State) : Instr → State
  | .primetest rs1 => s.useEntropy (.primetest rs1) (primeTest s.params s.cfg (s.operand rs1) s.env.entropy).2
  | _ => s

/-- Every command ends, with the result of its `execute`. -/
theorem exec_eq (i : Instr) (s : State) : exec i s = .next ((afterDraws s i).finish i (resultOf s i)) := by
  cases i <;> rfl

/-- Drawing bases touches the entropy source alone. -/
theorem afterDraws_eq (i : Instr) (s : State) : ∃ src, afterDraws s i = s.setEnv (s.env.setEntropy src) := by
  cases i with
  | primetest rs1 =>
    simp only [afterDraws, State.useEntropy]
    split
    · exact ⟨_, rfl⟩
    · exact ⟨s.env.entropy, rfl⟩
  | _ => exact ⟨s.env.entropy, rfl⟩

/-- A command that draws no base leaves the entropy source alone. -/
theorem afterDraws_of_ne (i : Instr) (s : State) (h : ∀ r, i ≠ .primetest r) : afterDraws s i = s := by
  cases i with
  | primetest rs1 => exact absurd rfl (h rs1)
  | _ => rfl

theorem afterDraws_legal (i : Instr) (s : State) : (afterDraws s i).legal i = s.legal i := by
  obtain ⟨src, h⟩ := afterDraws_eq i s
  rw [h]; rfl

/-- A result writes registers among the command's destinations (R24). -/
theorem resultOf_writes (i : Instr) (s : State) : ∀ w ∈ (resultOf s i).writes, w.1 ∈ destinations i := by
  intro w hw
  cases i with
  | nop => cases hw
  | modmul rd rs1 rs2 rs3 =>
    revert hw
    simp only [resultOf, modmulResult]
    split
    · simp [CmdResult.writes]
    · simp only [CmdResult.writes, destinations, List.mem_singleton]
      rintro rfl
      rfl
  | modexp rd rs1 rs2 rs3 =>
    revert hw
    simp only [resultOf, modexpResult]
    split
    · simp [CmdResult.writes]
    · simp only [CmdResult.writes, destinations, List.mem_singleton]
      rintro rfl
      rfl
  | xgcd rd rs1 rs2 rd2 rd3 =>
    revert hw
    simp only [resultOf, xgcdResult, CmdResult.writes, destinations, List.mem_cons, List.not_mem_nil, or_false]
    rintro (rfl | rfl | rfl) <;> simp
  | modinv rd rs1 rs2 =>
    revert hw
    simp only [resultOf, modinvResult]
    split
    · simp [CmdResult.writes]
    · split
      · simp [CmdResult.writes]
      · simp only [CmdResult.writes, destinations, List.mem_singleton]
        rintro rfl
        rfl
  | tdiv rs1 => cases hw
  | mrround rs1 rs2 =>
    revert hw
    simp only [resultOf, mrroundResult]
    split <;> simp [CmdResult.writes]
  | primetest rs1 =>
    revert hw
    simp only [resultOf]
    cases (primeTest s.params s.cfg (s.operand rs1) s.env.entropy).1 <;> simp [primetestResult, CmdResult.writes]

/-- Only XGCD's result carries signs (R35). -/
theorem resultOf_signs (i : Instr) (s : State) (h : ∀ rd rs1 rs2 rd2 rd3, i ≠ .xgcd rd rs1 rs2 rd2 rd3) :
    ∀ ws b g, resultOf s i = .ok ws b g → g = none := by
  intro ws b g e
  cases i with
  | xgcd rd rs1 rs2 rd2 rd3 => exact absurd rfl (h rd rs1 rs2 rd2 rd3)
  | nop => simp only [resultOf, CmdResult.ok.injEq] at e; exact e.2.2.symm
  | modmul rd rs1 rs2 rs3 =>
    simp only [resultOf, modmulResult] at e
    split at e
    · cases e
    · simp only [CmdResult.ok.injEq] at e; exact e.2.2.symm
  | modexp rd rs1 rs2 rs3 =>
    simp only [resultOf, modexpResult] at e
    split at e
    · cases e
    · simp only [CmdResult.ok.injEq] at e; exact e.2.2.symm
  | modinv rd rs1 rs2 =>
    simp only [resultOf, modinvResult] at e
    split at e
    · cases e
    · split at e
      · cases e
      · simp only [CmdResult.ok.injEq] at e; exact e.2.2.symm
  | tdiv rs1 => simp only [resultOf, CmdResult.ok.injEq] at e; exact e.2.2.symm
  | mrround rs1 rs2 =>
    simp only [resultOf, mrroundResult] at e
    split at e
    · cases e
    · simp only [CmdResult.ok.injEq] at e; exact e.2.2.symm
  | primetest rs1 =>
    simp only [resultOf] at e
    revert e
    cases (primeTest s.params s.cfg (s.operand rs1) s.env.entropy).1 <;> simp [primetestResult]
    exact fun _ _ h => h.symm

/-- What is left of a command's end: STATUS (R86). -/
theorem exec_status (i : Instr) (s t : State) (h : exec i s = .next t) :
    t.status = if s.legal i then s.status.completed (resultOf s i).code (resultOf s i).flag
      else s.status.completed .illegal false := by
  rw [exec_eq] at h
  cases h
  rw [State.finish_status, afterDraws_legal]
  obtain ⟨src, e⟩ := afterDraws_eq i s
  rw [e]; rfl

/-- No command writes a control register (R172). -/
theorem exec_control (i : Instr) (s t : State) (h : exec i s = .next t) :
    t.params = s.params ∧ t.ie = s.ie ∧ t.cfg = s.cfg ∧ t.cmd = s.cmd := by
  rw [exec_eq] at h
  cases h
  obtain ⟨src, e⟩ := afterDraws_eq i s
  simp [e]

theorem exec_fileWf (i : Instr) (s t : State) (h : exec i s = .next t) (hw : s.fileWf = true) : t.fileWf = true := by
  rw [exec_eq] at h
  cases h
  obtain ⟨src, e⟩ := afterDraws_eq i s
  rw [e]
  exact State.finish_fileWf _ _ _ hw

end Sys2Proof.Machine
end

