-- ==== Sys2Proof/Laws/Decode.lean ====
section
/-!
SUPPORT. The fields of a packed word, the opcode numbers, and what the decoder answers.
-/
namespace Sys2Proof

section fields
variable (o : BitVec 8) (a b c d e f : RegIdx)

/-- The packed word bit by bit, each field at its place. -/
theorem packWord_getLsbD (i : Nat) : (packWord o a b c d e f).getLsbD i =
    if i < 4 then f.getLsbD i else if i < 8 then e.getLsbD (i - 4) else if i < 12 then d.getLsbD (i - 8)
    else if i < 16 then c.getLsbD (i - 12) else if i < 20 then b.getLsbD (i - 16)
    else if i < 24 then a.getLsbD (i - 20) else o.getLsbD (i - 24) := by
  show BitVec.getLsbD (w := 8 + 4 + 4 + 4 + 4 + 4 + 4) (o ++ a ++ b ++ c ++ d ++ e ++ f) i = _
  rw [BitVec.getLsbD_append, BitVec.getLsbD_append, BitVec.getLsbD_append, BitVec.getLsbD_append, BitVec.getLsbD_append,
    BitVec.getLsbD_append]
  simp only [Nat.sub_sub, Nat.reduceAdd]
  split_ifs <;> first | rfl | omega

@[simp] theorem fieldOpc_packWord : fieldOpc (packWord o a b c d e f) = o := by
  apply BitVec.eq_of_getLsbD_eq
  intro i hi
  interval_cases i <;> simp [-BitVec.getLsbD_eq_getElem, packWord_getLsbD, fieldOpc]

@[simp] theorem fieldRd_packWord : fieldRd (packWord o a b c d e f) = a := by
  apply BitVec.eq_of_getLsbD_eq
  intro i hi
  interval_cases i <;> simp [-BitVec.getLsbD_eq_getElem, packWord_getLsbD, fieldRd]

@[simp] theorem fieldRs1_packWord : fieldRs1 (packWord o a b c d e f) = b := by
  apply BitVec.eq_of_getLsbD_eq
  intro i hi
  interval_cases i <;> simp [-BitVec.getLsbD_eq_getElem, packWord_getLsbD, fieldRs1]

@[simp] theorem fieldRs2_packWord : fieldRs2 (packWord o a b c d e f) = c := by
  apply BitVec.eq_of_getLsbD_eq
  intro i hi
  interval_cases i <;> simp [-BitVec.getLsbD_eq_getElem, packWord_getLsbD, fieldRs2]

@[simp] theorem fieldRs3_packWord : fieldRs3 (packWord o a b c d e f) = d := by
  apply BitVec.eq_of_getLsbD_eq
  intro i hi
  interval_cases i <;> simp [-BitVec.getLsbD_eq_getElem, packWord_getLsbD, fieldRs3]

@[simp] theorem fieldRd2_packWord : fieldRd2 (packWord o a b c d e f) = e := by
  apply BitVec.eq_of_getLsbD_eq
  intro i hi
  interval_cases i <;> simp [-BitVec.getLsbD_eq_getElem, packWord_getLsbD, fieldRd2]

@[simp] theorem fieldRd3_packWord : fieldRd3 (packWord o a b c d e f) = f := by
  apply BitVec.eq_of_getLsbD_eq
  intro i hi
  interval_cases i <;> simp [-BitVec.getLsbD_eq_getElem, packWord_getLsbD, fieldRd3]

end fields

/-- A word is the packing of its fields. -/
theorem packWord_fields (w : Word) :
    packWord (fieldOpc w) (fieldRd w) (fieldRs1 w) (fieldRs2 w) (fieldRs3 w) (fieldRd2 w) (fieldRd3 w) = w := by
  apply BitVec.eq_of_getLsbD_eq
  intro i hi
  interval_cases i <;>
    simp [-BitVec.getLsbD_eq_getElem, packWord_getLsbD, fieldOpc, fieldRd, fieldRs1, fieldRs2, fieldRs3, fieldRd2, fieldRd3]

theorem opcodeOf_number (c : Opcode) : opcodeOf c.number = some c := by cases c <;> decide

theorem number_of_opcodeOf (n : BitVec 8) (c : Opcode) (h : opcodeOf n = some c) : c.number = n := by
  have := List.find?_some h
  simpa using this

/-- What the decoder answers, said once. -/
theorem decode_eq_ok_iff (w : Word) (i : Instr) :
    decode w = .ok i ↔ ∃ c : Opcode, c.number = fieldOpc w ∧ c.matchesWord w = true ∧ c.build w = i := by
  unfold decode
  constructor
  · intro h
    split at h
    · cases h
    · rename_i c hc
      split at h
      · rename_i hm
        exact ⟨c, number_of_opcodeOf _ _ hc, hm, by simpa using h⟩
      · cases h
  · rintro ⟨c, hn, hm, rfl⟩
    rw [← hn, opcodeOf_number]
    simp [hm]

end Sys2Proof
end

