-- ==== Sys2Proof/Laws/PerInstr.lean ====
section
/-!
SUPPORT. The per-instruction family: the word of a command carries its opcode number, and its decoding is a matter of
its mask alone.
-/
namespace Sys2Proof.Laws.Opcode

/-- The encoder puts the opcode number of R89 into OPC, for every command. -/
def Statement (i : Instr) : Prop := fieldOpc (encode i) = (opcodeOfInstr i).number

theorem nop : Statement .nop := fieldOpc_packWord _ _ _ _ _ _ _
theorem modmul (rd rs1 rs2 rs3 : RegIdx) : Statement (.modmul rd rs1 rs2 rs3) := fieldOpc_packWord _ _ _ _ _ _ _
theorem modexp (rd rs1 rs2 rs3 : RegIdx) : Statement (.modexp rd rs1 rs2 rs3) := fieldOpc_packWord _ _ _ _ _ _ _
theorem xgcd (rd rs1 rs2 rd2 rd3 : RegIdx) : Statement (.xgcd rd rs1 rs2 rd2 rd3) := fieldOpc_packWord _ _ _ _ _ _ _
theorem modinv (rd rs1 rs2 : RegIdx) : Statement (.modinv rd rs1 rs2) := fieldOpc_packWord _ _ _ _ _ _ _
theorem tdiv (rs1 : RegIdx) : Statement (.tdiv rs1) := fieldOpc_packWord _ _ _ _ _ _ _
theorem mrround (rs1 rs2 : RegIdx) : Statement (.mrround rs1 rs2) := fieldOpc_packWord _ _ _ _ _ _ _
theorem primetest (rs1 : RegIdx) : Statement (.primetest rs1) := fieldOpc_packWord _ _ _ _ _ _ _

end Sys2Proof.Laws.Opcode
end

