-- ==== Sys2Proof/Laws/Primality.lean ====
section
/-!
SUPPORT. What the Miller–Rabin loop of PRIMETEST can do, over the bases the entropy source gives.
-/
namespace Sys2Proof.Machine

@[simp] theorem Draws_nil (n tries : Nat) (e f : EntropySource) : Draws n tries e [] f ↔ f = e := Iff.rfl

@[simp] theorem Draws_cons (n tries a : Nat) (as : List Nat) (e f : EntropySource) :
    Draws n tries e (a :: as) f ↔
      (e.drawBase n tries).1 = some a ∧ Draws n tries (e.drawBase n tries).2 as f := Iff.rfl

/-- How the loop can end (R149): after r bases that all pass; at the first base that fails; at a draw that gives none. -/
theorem primeRounds_cases (tries n : Nat) : ∀ r e,
    (∃ bases, Draws n tries e bases (primeRounds tries n r e).2 ∧ bases.length = r
        ∧ (∀ a ∈ bases, millerRabin n a = true) ∧ (primeRounds tries n r e).1 = some true)
    ∨ (∃ bases a f, Draws n tries e bases f ∧ bases.length < r ∧ (∀ b ∈ bases, millerRabin n b = true)
        ∧ f.drawBase n tries = (some a, (primeRounds tries n r e).2) ∧ millerRabin n a = false
        ∧ (primeRounds tries n r e).1 = some false)
    ∨ (∃ bases f, Draws n tries e bases f ∧ bases.length < r ∧ (∀ b ∈ bases, millerRabin n b = true)
        ∧ f.drawBase n tries = (none, (primeRounds tries n r e).2) ∧ (primeRounds tries n r e).1 = none) := by
  intro r
  induction r with
  | zero => intro e; exact .inl ⟨[], rfl, rfl, by simp, rfl⟩
  | succ r ih =>
    intro e
    cases hd : (e.drawBase n tries).1 with
    | none =>
      have h : primeRounds tries n (r + 1) e = (none, (e.drawBase n tries).2) := by simp [primeRounds, hd]
      rw [h]
      exact .inr (.inr ⟨[], e, rfl, by simp, by simp, by rw [← hd], rfl⟩)
    | some a =>
      cases hm : millerRabin n a
      · have h : primeRounds tries n (r + 1) e = (some false, (e.drawBase n tries).2) := by simp [primeRounds, hd, hm]
        rw [h]
        exact .inr (.inl ⟨[], a, e, rfl, by simp, by simp, by rw [← hd], hm, rfl⟩)
      · have h : primeRounds tries n (r + 1) e = primeRounds tries n r (e.drawBase n tries).2 := by
          simp [primeRounds, hd, hm]
        rw [h]
        rcases ih (e.drawBase n tries).2 with ⟨bs, h1, h2, h3, h4⟩ | ⟨bs, b, f, h1, h2, h3, h4⟩ | ⟨bs, f, h1, h2, h3, h4⟩
        · exact .inl ⟨a :: bs, ⟨hd, h1⟩, by simp [h2], by simpa [hm] using h3, h4⟩
        · exact .inr (.inl ⟨a :: bs, b, f, ⟨hd, h1⟩, by simp [h2], by simpa [hm] using h3, h4⟩)
        · exact .inr (.inr ⟨a :: bs, f, ⟨hd, h1⟩, by simp [h2], by simpa [hm] using h3, h4⟩)

/-- Bases that pass are rounds done: the loop goes on from where the last of them left the source. -/
theorem primeRounds_of_draws (tries n : Nat) : ∀ bases r e f, Draws n tries e bases f → bases.length ≤ r →
    (∀ a ∈ bases, millerRabin n a = true) → primeRounds tries n r e = primeRounds tries n (r - bases.length) f := by
  intro bases
  induction bases with
  | nil => intro r e f h _ _; cases h; rfl
  | cons a bs ih =>
    rintro r e f ⟨h1, h2⟩ hl hm
    obtain ⟨r, rfl⟩ : ∃ k, r = k + 1 := ⟨r - 1, by simp at hl; omega⟩
    simp only [List.length_cons, Nat.add_le_add_iff_right, List.mem_cons, forall_eq_or_imp] at hl hm
    simp [primeRounds, h1, hm.1, ih r _ _ h2 hl hm.2]

end Sys2Proof.Machine
end

