-- ==== Sys2Proof/Laws/Step.lean ====
section
/-!
SUPPORT. What a step, a bus write and an engine step can do, said once each.
-/
namespace Sys2Proof.Machine

/-! ### The schedule -/

/-- What a turn can be: the engine's with the latency used up, or the host's, which uses up one of it. -/
theorem State.takeTurn_cases (s : State) :
    (s.env.hold = 0 ∧ s.takeTurn = (.engine, s))
      ∨ ∃ k, s.env.hold = k + 1 ∧ s.takeTurn = (.host, s.setEnv (s.env.setHold k)) := by
  unfold State.takeTurn
  split
  · exact .inl ⟨‹_›, rfl⟩
  · exact .inr ⟨_, ‹_›, rfl⟩

/-- Who moves: the host while idle; the engine while busy with no host access pending; else whoever's turn it is. -/
theorem State.schedule_cases (s : State) :
    (s.status.busy = false ∧ s.schedule = (.host, s))
      ∨ (s.status.busy = true ∧ s.env.host = [] ∧ s.schedule = (.engine, s))
      ∨ (s.status.busy = true ∧ s.env.host ≠ [] ∧ s.schedule = s.takeTurn) := by
  unfold State.schedule
  split
  · exact .inl ⟨‹_›, rfl⟩
  · exact .inr (.inl ⟨‹_›, ‹_›, rfl⟩)
  · rename_i hb hh
    exact .inr (.inr ⟨hb, by rw [hh]; exact List.cons_ne_nil _ _, rfl⟩)

/-- What a step can be: the engine's while BUSY = 1, or the host's, on a state that differs from s in the latency left
alone. -/
theorem step_cases (s : State) :
    (s.status.busy = true ∧ step s = engineStep s)
      ∨ ∃ k, step s = hostStep (s.setEnv (s.env.setHold k)) := by
  unfold step
  rcases s.schedule_cases with ⟨-, h⟩ | ⟨hb, -, h⟩ | ⟨hb, -, h⟩
  · exact .inr ⟨s.env.hold, by rw [h]; rfl⟩
  · exact .inl ⟨hb, by rw [h]; rfl⟩
  · rcases s.takeTurn_cases with ⟨-, e⟩ | ⟨k, -, e⟩
    · exact .inl ⟨hb, by rw [h, e]; rfl⟩
    · exact .inr ⟨k, by rw [h, e]; rfl⟩

/-- A step while BUSY = 1 with a host access pending: completion once the latency is used up, a step of the host before. -/
theorem step_busy (s : State) (hb : s.status.busy = true) (hh : s.env.host ≠ []) :
    (s.env.hold = 0 ∧ step s = engineStep s)
      ∨ ∃ k, s.env.hold = k + 1 ∧ step s = hostStep (s.setEnv (s.env.setHold k)) := by
  rcases s.schedule_cases with ⟨h, -⟩ | ⟨-, h, -⟩ | ⟨-, -, h⟩
  · simp [h] at hb
  · exact absurd h hh
  · unfold step
    rcases s.takeTurn_cases with ⟨hk, e⟩ | ⟨k, hk, e⟩
    · exact .inl ⟨hk, by rw [h, e]; rfl⟩
    · exact .inr ⟨k, hk, by rw [h, e]; rfl⟩

/-! ### The engine -/

/-- What an engine step can be: ILLEGAL for a word that does not decode, else the command. -/
theorem engineStep_cases (s : State) :
    (∃ i, decode s.cmd = .ok i ∧ engineStep s = exec i s)
      ∨ (∃ e, decode s.cmd = .error e ∧ engineStep s = .next (s.commit (.err .illegal))) := by
  unfold engineStep State.fetch
  cases h : decode s.cmd with
  | ok i => exact .inl ⟨i, rfl, rfl⟩
  | error e => exact .inr ⟨e, rfl, rfl⟩

/-! ### The bus -/

/-- What a bus write can be, whatever the offset. -/
theorem State.busWrite_cases (s : State) (a : Offset) (v : Word) :
    s.busWrite a v = s ∨ s.busWrite a v = s.writeCtrl v ∨ s.busWrite a v = s.writeStatus v
      ∨ s.busWrite a v = s.writeCfg v ∨ s.busWrite a v = s.writeCmd v
      ∨ ∃ i j, s.busWrite a v = s.writeOperandWord i j v := by
  unfold State.busWrite
  cases target s.params a <;> simp [State.writeTarget]
  exact .inr (.inr (.inr (.inr (.inr ⟨_, _, rfl⟩))))

/-- A read changes nothing but the model's record. -/
theorem State.answerRead_eq (s : State) (a : Offset) :
    ∃ n, s.answerRead a = s.setEnv { s.env with rdata := s.busRead a, ramDraws := n } := by
  unfold State.answerRead State.noteRead
  cases s.readDraws (target s.params a)
  · exact ⟨s.env.ramDraws, rfl⟩
  · exact ⟨s.env.ramDraws + 1, rfl⟩

/-- What a host operation that is no fault can be. -/
theorem hostOp_cases (s t : State) (rest : List HostOp) (op : HostOp) (h : hostOp s rest op = .next t) :
    (∃ e, t = s.setEnv e)
      ∨ (∃ a v, op = .write a .four v ∧ t = (s.setEnv (s.env.setHost rest)).busWrite a v)
      ∨ (op = .hardReset ∧ t = (s.setEnv (s.env.setHost rest)).resetBlock) := by
  cases op with
  | read a z =>
    simp only [hostOp] at h
    split at h
    · cases h
      obtain ⟨n, e⟩ := State.answerRead_eq (s.setEnv (s.env.setHost rest)) a
      exact .inl ⟨_, by rw [e]; rfl⟩
    · cases h
  | write a z v =>
    simp only [hostOp] at h
    split at h
    · rename_i hl
      have hz : z = .four := by
        simp only [legalAccess, Bool.and_eq_true, beq_iff_eq] at hl
        exact hl.1
      subst hz
      cases h
      exact .inr (.inl ⟨a, v, rfl, rfl⟩)
    · cases h
  | wait =>
    simp only [hostOp] at h
    cases h
    split
    · obtain ⟨n, e⟩ := State.answerRead_eq s 0x014
      exact .inl ⟨_, e⟩
    · obtain ⟨n, e⟩ := State.answerRead_eq (s.setEnv (s.env.setHost rest)) 0x014
      exact .inl ⟨_, by rw [e]; rfl⟩
  | waitIrq =>
    simp only [hostOp] at h
    cases h
    split
    · exact .inl ⟨_, rfl⟩
    · exact .inl ⟨s.env, rfl⟩
  | hardReset =>
    simp only [hostOp] at h
    cases h
    exact .inr (.inr ⟨rfl, rfl⟩)

/-- What a host step that is no fault can be. -/
theorem hostStep_cases (s t : State) (h : hostStep s = .next t) :
    (∃ e, t = s.setEnv e)
      ∨ (∃ a v rest, s.env.host = .write a .four v :: rest ∧ t = (s.setEnv (s.env.setHost rest)).busWrite a v)
      ∨ (∃ rest, s.env.host = .hardReset :: rest ∧ t = (s.setEnv (s.env.setHost rest)).resetBlock) := by
  unfold hostStep at h
  split at h
  · cases h; exact .inl ⟨s.env, rfl⟩
  · rename_i op rest hh
    rcases hostOp_cases s t rest op h with h | ⟨a, v, rfl, e⟩ | ⟨rfl, e⟩
    · exact .inl h
    · exact .inr (.inl ⟨a, v, rest, hh, e⟩)
    · exact .inr (.inr ⟨rest, hh, e⟩)

/-- An engine step ends the command. -/
theorem engineStep_ends (s : State) : ∃ t, engineStep s = .next t ∧ t.status.busy = false := by
  rcases engineStep_cases s with ⟨i, -, e⟩ | ⟨_, -, e⟩
  · refine ⟨_, e.trans (exec_eq i s), ?_⟩
    rw [exec_status i s _ (exec_eq i s)]
    split <;> rfl
  · exact ⟨_, e, rfl⟩

/-- The only stop of a host operation is the bus fault. -/
theorem hostOp_next_or_fault (s : State) (rest : List HostOp) (op : HostOp) :
    (∃ t, hostOp s rest op = .next t) ∨ hostOp s rest op = .fault .busError := by
  cases op <;> simp only [hostOp]
  · split
    · exact .inl ⟨_, rfl⟩
    · exact .inr rfl
  · split
    · exact .inl ⟨_, rfl⟩
    · exact .inr rfl
  all_goals exact .inl ⟨_, rfl⟩

/-- A bus write issues nothing while BUSY = 1, so it leaves the latency alone. -/
theorem State.busWrite_hold (s : State) (a : Offset) (v : Word) (hb : s.status.busy = true) :
    (s.busWrite a v).env.hold = s.env.hold := by
  rcases s.busWrite_cases a v with h | h | h | h | h | ⟨i, j, h⟩ <;> rw [h]
  · unfold State.writeCtrl State.abortIf
    split
    · rfl
    · split <;> rfl
  · rfl
  · unfold State.writeCfg; split <;> rfl
  · unfold State.writeCmd; rw [if_pos hb]; rfl
  · unfold State.writeOperandWord; split <;> rfl

/-- No host operation uses the latency of a running command, or gives it more. -/
theorem hostStep_hold (s t : State) (hb : s.status.busy = true) (h : hostStep s = .next t) : t.env.hold = s.env.hold := by
  have hread : ∀ (u : State) (a : Offset), (u.answerRead a).env.hold = u.env.hold := by
    intro u a
    obtain ⟨n, e⟩ := u.answerRead_eq a
    rw [e]; rfl
  unfold hostStep at h
  split at h
  · cases h; rfl
  · rename_i op rest hh
    cases op with
    | read a z =>
      simp only [hostOp] at h
      split at h
      · cases h; exact hread _ _
      · cases h
    | write a z v =>
      simp only [hostOp] at h
      split at h
      · cases h; exact State.busWrite_hold _ a v hb
      · cases h
    | wait =>
      simp only [hostOp, hb, if_true] at h
      cases h; exact hread _ _
    | waitIrq =>
      simp only [hostOp] at h
      cases h
      split <;> rfl
    | hardReset =>
      simp only [hostOp] at h
      cases h; rfl

/-! ### Every bus write keeps the operand file's form and the parameters -/

@[simp] theorem State.busWrite_params (s : State) (a : Offset) (v : Word) : (s.busWrite a v).params = s.params := by
  rcases s.busWrite_cases a v with h | h | h | h | h | ⟨i, j, h⟩ <;> rw [h]
  · unfold State.writeCtrl State.abortIf
    split
    · rfl
    · split <;> rfl
  · rfl
  · unfold State.writeCfg; split <;> rfl
  · unfold State.writeCmd; split <;> rfl
  · unfold State.writeOperandWord; split <;> rfl

theorem State.busWrite_fileWf (s : State) (a : Offset) (v : Word) (hw : s.fileWf = true) :
    (s.busWrite a v).fileWf = true := by
  rcases s.busWrite_cases a v with h | h | h | h | h | ⟨i, j, h⟩ <;> rw [h]
  · exact hw
  · unfold State.writeCtrl State.abortIf
    split
    · exact State.resetWith_fileWf _ _
    · split <;> exact hw
  · exact hw
  · unfold State.writeCfg; split <;> exact hw
  · unfold State.writeCmd; split <;> exact hw
  · unfold State.writeOperandWord
    split
    · exact hw
    · exact s.writeWord_fileWf _ _ _ hw

end Sys2Proof.Machine
end

