-- ==== Sys2Proof/Tests/Slice0.lean ====
section
/-!
SUPPORT. The model's own tests, each about one step on a small state, with expected results from the spec's vectors (95) or
its rules; and the witnesses: for every statement with hypotheses, a concrete state and operands that meet them.
-/
set_option Elab.async false

namespace Sys2Proof.Tests
open Sys2Proof.Machine

/-! ### Small states -/

/-- A small legal block: two words a register, five registers. -/
def tiny : Params := { nbits := 64, nreg := 5, tdLimit := 256, entMaxTries := 4, mrRoundsReset := 3 }

/-- The small block after reset. -/
def fresh : State := State.resetWith tiny Env.empty

/-- The small block, idle, with every operand word written. -/
def regs (a b c d e : Nat) : State := fresh.setX ([a, b, c, d, e].map (wordsOf 2))

/-- The same with trial division off and entropy answers lined up. -/
def drawing (n : Nat) (ws : List EntropyAnswer) : State :=
  ((regs n 0 0 0 0).setCfg { mrRounds := 3, tdEn := false }).setEnv (Env.empty.setEntropy { answers := ws, taken := 0 })

/-- An answer of the entropy port without and with ent_err. -/
def word (v : Word) : EntropyAnswer := { data := v, err := false }
def failing : EntropyAnswer := { data := 0, err := true }

/-- Does the outcome answer a next state with this property? -/
def nextHas (o : Host.Outcome State Fault Refusal) (p : State → Bool) : Bool :=
  match o with
  | .next t => p t
  | _ => false

/-- Is the outcome the bus fault? -/
def isBusError (o : Host.Outcome State Fault Refusal) : Bool :=
  match o with
  | .fault .busError => true
  | _ => false

/-! ### Ill-formed commands: one for each check of R88 -/

theorem test_wellFormed_index : (Instr.modmul 8 0 1 2).wellFormed 8 = false := by decide
theorem test_wellFormed_source : (Instr.mrround 0 8).wellFormed 8 = false := by decide
theorem test_wellFormed_distinct : (Instr.xgcd 2 0 1 2 3).wellFormed 8 = false := by decide
theorem test_wellFormed_ok : (Instr.xgcd 2 0 1 3 4).wellFormed 8 = true := by decide

/-! ### Words written out from the encoding (R81, R82, R92) -/

theorem test_decode_nop : decode 0b00000000_0000_0000_0000_0000_0000_0000 = .ok .nop := by decide
theorem test_decode_modmul : decode 0b00000001_0011_0000_0001_0010_0000_0000 = .ok (.modmul 3 0 1 2) := by decide
theorem test_decode_modexp : decode 0b00000010_0011_0000_0001_0010_0000_0000 = .ok (.modexp 3 0 1 2) := by decide
theorem test_decode_xgcd : decode 0b00000011_0010_0000_0001_0000_0011_0100 = .ok (.xgcd 2 0 1 3 4) := by decide
theorem test_decode_modinv : decode 0b00000100_0010_0000_0001_0000_0000_0000 = .ok (.modinv 2 0 1) := by decide
theorem test_decode_tdiv : decode 0b00000101_0000_0001_0000_0000_0000_0000 = .ok (.tdiv 1) := by decide
theorem test_decode_mrround : decode 0b00000110_0000_0000_0001_0000_0000_0000 = .ok (.mrround 0 1) := by decide
theorem test_decode_primetest : decode 0b00000111_0000_0110_0000_0000_0000_0000 = .ok (.primetest 6) := by decide

/-- Illegal words of 95 sections 2.3, 2.5, 2.6 and 2.8, with the check that refuses each. -/
theorem test_decodeCheck_refuses :
    [0x00000001, 0x08000000, 0xFF000000, 0x01301201, 0x02801200, 0x04201100, 0x05000001, 0x06001100, 0x07060010,
      0x03201022, 0x03201134, 0x05800000, 0x06081000].map (fun w : Word => decodeCheck 8 w) =
    [.error .unusedField, .error .reservedOpcode, .error .reservedOpcode, .error .unusedField, .error .registerIndex,
      .error .unusedField, .error .unusedField, .error .unusedField, .error .unusedField, .error .sameDestination,
      .error .unusedField, .error .unusedField, .error .registerIndex] := by decide

theorem test_decodeBytes_lanes : decodeBytes [0x34, 0x10, 0x20, 0x03] = .ok (.xgcd 2 0 1 3 4) := by decide
theorem test_decodeBytes_short : decodeBytes [0x34, 0x10, 0x20] = .error .notOneWord := by decide
theorem test_decodeTableWord : decodeTableWord 32 0x07060000 = some (.primetest 6) := by decide

/-- The examples of R92 and R93. -/
theorem test_assemble :
    ["MODEXP x3, x0, x1, x2", "xgcd x2, x3, x4, x0, x1 ; the gcd", "MODSQR x5, x4, x2", "MODRED x7, x7, x4, x1", "NOP"].map
      (fun l => (assemble 8 l.toList).map encode) =
    [some 0x02301200, some 0x03201034, some 0x01544200, some 0x01774100, some 0] := by decide +kernel
theorem test_assemble_error : assemble 8 "TDIV x8".toList = none := by decide +kernel

/-! ### The commands -/

/-- 95 section 2.8: NOP leaves STATUS = 0x2. -/
theorem test_nop : nextHas (exec .nop fresh) (fun t => t.busRead 0x014 == 0x2 && t.cmd == fresh.cmd) = true := by
  decide +kernel

/-- 95 section 2.1: 12 · 16 mod 23 = 8; STATUS = 0x2. -/
theorem test_modmul : nextHas (exec (.modmul 3 0 1 2) (regs 12 16 23 77 0))
    (fun t => t.operand 3 == 8 && t.busRead 0x014 == 0x2 && t.operand 0 == 12) = true := by decide +kernel
/-- 95 section 2.1: m = 0 is INVALID_PARAM and the destination is unchanged. -/
theorem test_modmul_zero : nextHas (exec (.modmul 3 0 1 2) (regs 5 7 0 77 0))
    (fun t => t.operand 3 == 77 && t.busRead 0x014 == 0x206) = true := by decide +kernel

/-- EMM section 8: 65^17 mod 3233 = 2790. -/
theorem test_modexp : nextHas (exec (.modexp 3 0 1 2) (regs 65 17 3233 0 0)) (fun t => t.operand 3 == 2790) = true := by
  decide +kernel
/-- 95 section 2.2: 0^0 mod 7 = 1, into the base's own register. -/
theorem test_modexp_zero_zero : nextHas (exec (.modexp 0 0 1 2) (regs 0 0 7 0 0)) (fun t => t.operand 0 == 1) = true := by
  decide +kernel

/-- 95 section 2.3: ext(7, 11) = (1, -3, 2), XSGN = 1. -/
theorem test_xgcd : nextHas (exec (.xgcd 2 0 1 3 4) (regs 7 11 0 0 0))
    (fun t => t.operand 2 == 1 && t.operand 3 == 3 && t.operand 4 == 2 && t.busRead 0x020 == 1) = true := by decide +kernel
/-- 95 section 2.3: ext(46, 240) = (2, 47, -9), XSGN = 2; the destinations are the sources here. -/
theorem test_xgcd_alias : nextHas (exec (.xgcd 2 0 1 0 1) (regs 46 240 0 0 0))
    (fun t => t.operand 2 == 2 && t.operand 0 == 47 && t.operand 1 == 9 && t.busRead 0x020 == 2) = true := by decide +kernel

/-- EMM section 8: 17^-1 mod 3120 = 2753. -/
theorem test_modinv : nextHas (exec (.modinv 2 0 1) (regs 17 3120 0 0 0)) (fun t => t.operand 2 == 2753) = true := by
  decide +kernel
/-- 95 section 2.4: 6 has no inverse mod 9; STATUS = 0x306. -/
theorem test_modinv_none : nextHas (exec (.modinv 2 0 1) (regs 6 9 5 0 0))
    (fun t => t.operand 2 == 5 && t.busRead 0x014 == 0x306) = true := by decide +kernel

/-- 95 section 2.5: 251 is in SP, RES = 1; 3233 = 53 · 61 gives 0. -/
theorem test_tdiv : nextHas (exec (.tdiv 0) (regs 251 0 0 0 0)) (fun t => t.busRead 0x014 == 0xA) = true := by
  decide +kernel
theorem test_tdiv_composite : nextHas (exec (.tdiv 0) (regs 3233 0 0 0 0)) (fun t => t.busRead 0x014 == 0x2) = true := by
  decide +kernel

/-- 95 section 2.6: 2047 passes base 2, 221 fails base 137. -/
theorem test_mrround : nextHas (exec (.mrround 0 1) (regs 2047 2 0 0 0)) (fun t => t.busRead 0x014 == 0xA) = true := by
  decide +kernel
theorem test_mrround_fails : nextHas (exec (.mrround 0 1) (regs 221 137 0 0 0)) (fun t => t.busRead 0x014 == 0x2) = true := by
  decide +kernel

/-- 95 section 2.7: 2047 with TD_EN = 0 and the bases 2, then 3: 0 after two draws. -/
theorem test_primetest : nextHas (exec (.primetest 0) (drawing 2047 [word 2, word 3, word 5]))
    (fun t => t.busRead 0x014 == 0x2 && t.env.entropy.answers == [word 5]) = true := by decide +kernel
/-- 95 section 2.7: a failing draw after two good ones; STATUS = 0x406. -/
theorem test_primetest_entropy : nextHas (exec (.primetest 0) (drawing 65537 [word 3, word 5, failing]))
    (fun t => t.busRead 0x014 == 0x406) = true := by decide +kernel

/-! ### The register interface (95 sections 2.9 and 2.10) -/

theorem test_cfg_write_zero : (fresh.busWrite 0x018 0x00000000).busRead 0x018 = 0x00000003 := by decide +kernel
theorem test_cfg_write_reserved : (fresh.busWrite 0x018 0xFFFFFF05).busRead 0x018 = 0x00000105 := by decide +kernel
theorem test_byte_read_faults : isBusError (hostOp fresh [] (.read 0x1000 .one)) = true := by decide +kernel
theorem test_misaligned_faults : isBusError (hostOp fresh [] (.write 0x1002 .four 0)) = true := by decide +kernel
theorem test_operand_write : (fresh.busWrite 0x100C 5).word 1 1 = { val := 5, written := true } := by decide +kernel
theorem test_busy_operand_write :
    ((fresh.issue 0x02301200).busWrite 0x1000 5).busRead 0x014 = 0x00000021 := by decide +kernel
theorem test_abort : ((fresh.issue 0x02301200).busWrite 0x010 0x2).busRead 0x014 = 0x00000506 := by decide +kernel
theorem test_srst_wins : ((fresh.issue 0x02301200).busWrite 0x010 0x6).setEnv Env.empty = fresh := by decide +kernel
/-- WRX x1, 2^64 + 5 in the reference configuration starts at 0x1100 (95 section 2.9). -/
theorem test_wrx_first : (wrx Params.reference 1 (2 ^ 64 + 5)).take 3 =
    [.write 0x1100 .four 5, .write 0x1104 .four 0, .write 0x1108 .four 1] := by decide +kernel
/-- WAIT goes on while BUSY = 1, and ends where BUSY = 0 (R94). -/
theorem test_wait_busy : nextHas (hostOp ((fresh.issue 0).setEnv (Env.empty.setHost [.wait])) [] .wait)
    (fun t => t.env.host == [.wait] && t.env.rdata == 1) = true := by decide +kernel
theorem test_wait_done : nextHas (hostOp (fresh.setEnv (Env.empty.setHost [.wait])) [] .wait)
    (fun t => t.env.host == [] && t.env.rdata == 0) = true := by decide +kernel
/-- A command completes before a pending access once its latency is used up (R15, R86), and not sooner. -/
theorem test_step_latency : nextHas (step ((fresh.issue 0).setEnv (Env.empty.setHost [.wait])))
    (fun t => t.status.done && t.env.host == [.wait]) = true := by decide +kernel
theorem test_step_host_first : nextHas (step ((fresh.issue 0).setEnv ((Env.empty.setHost [.wait]).setHold 2)))
    (fun t => t.status.busy && t.env.host == [.wait] && t.env.hold == 1) = true := by decide +kernel
/-- A word issued after reset runs in the very next step. -/
theorem test_issued_word_runs : nextHas (step (State.reset.withFetchWord 32 0x00000000))
    (fun t => t.busRead 0x014 == 0x2) = true := by decide +kernel

/-! ### Witnesses: the hypotheses of every statement are met -/

theorem witness_EncodeOfDecode : decode 0x03201034 = .ok (.xgcd 2 0 1 3 4) := by decide
theorem witness_OpcodeTable_match : (0x01FFFF00 : Word) &&& Opcode.modmul.mask = Opcode.modmul.pattern := by decide
theorem witness_ReservedEncodings_opcode : 0x07 < (fieldOpc (fresh.issue 0x08000000).cmd).toNat := by decide +kernel
theorem witness_ReservedEncodings_field : ∃ f ∈ unusedFields (fresh.issue 0x00000001).cmd, f ≠ 0 :=
  ⟨1, by decide +kernel⟩
theorem witness_IllegalIff_decodes : ∃ t, engineStep (fresh.issue 0x00000000) = .next t := ⟨_, rfl⟩
theorem witness_IllegalIff_reserved :
    ∃ t, engineStep (fresh.issue 0xFF000000) = .next t ∧ 0x07 < (fieldOpc (fresh.issue 0xFF000000).cmd).toNat :=
  ⟨_, rfl, by decide +kernel⟩
theorem witness_StepRuns_noHost : (fresh.issue 0).status.busy = true ∧ decode (fresh.issue 0).cmd = .ok .nop
    ∧ (fresh.issue 0).env.host = [] := by decide +kernel
/-- Busy, with a host access pending and the latency used up. -/
def contended : State := (fresh.issue 0).setEnv (Env.empty.setHost [.hardReset])
/-- The same with some latency left. -/
def waiting : State := (fresh.issue 0).setEnv ((Env.empty.setHost [.wait]).setHold 2)
theorem witness_StepRuns_engine : contended.status.busy = true ∧ decode contended.cmd = .ok .nop
    ∧ contended.env.hold = 0 := by decide +kernel
theorem witness_StepRuns_host : waiting.status.busy = true ∧ decode waiting.cmd = .ok .nop
    ∧ waiting.env.host ≠ [] ∧ waiting.env.hold = 1 + 1 := by decide +kernel
theorem witness_idle : fresh.inv = true ∧ fresh.status.busy = false := by decide +kernel
theorem witness_busy : (fresh.issue 0x02301200).inv = true ∧ (fresh.issue 0x02301200).status.busy = true := by
  decide +kernel
theorem witness_CtrlWrite_abort : (0x2 : Word).getLsbD 2 = false ∧ (0x2 : Word).getLsbD 1 = true
    ∧ (fresh.issue 0).status.busy = true := by decide +kernel
theorem witness_CtrlWrite_plain : (0x1 : Word).getLsbD 2 = false ∧ (0x1 : Word).getLsbD 1 = false := by decide
theorem witness_CtrlWrite_reset : (0x6 : Word).getLsbD 2 = true ∧ (State.reset.params.mrRoundsReset = 40) := by decide
theorem witness_IdentityRegisters : State.reset.params.legal = true ∧ State.reset.params = Params.reference
    ∧ tiny.legal = true := by decide
theorem witness_IdentityRegisters_step : ∃ t, step contended = .next t := ⟨_, rfl⟩
theorem witness_ReservedSpace_low : reservedOffset tiny 0x00C ∧ (0x00C : Offset).extractLsb' 0 2 = 0 := by decide
theorem witness_ReservedSpace_edges : reservedOffset tiny 0x024 ∧ reservedOffset tiny 0xFFC ∧ ¬ reservedOffset tiny 0x020
    ∧ ¬ reservedOffset tiny 0x1000 ∧ (0xFFC : Offset).extractLsb' 0 2 = 0 := by decide
theorem witness_ReservedSpace_top : reservedOffset tiny 0x1028 ∧ reservedOffset tiny 0x1FFC ∧ ¬ reservedOffset tiny 0x1024 := by
  decide
theorem witness_OperandWindow : tiny.legal = true ∧ 4 < tiny.nreg ∧ 1 < tiny.nbits / 32
    ∧ 0x1000 + tiny.nreg * tiny.nbits / 8 ≤ (0x1028 : Offset).toNat := by decide
theorem witness_RegisterIsSum : (regs 12 (2 ^ 64 - 1) 0 0 0).inv = true ∧ (regs 12 (2 ^ 64 - 1) 0 0 0).hasReg 1
    ∧ (regs 12 (2 ^ 64 - 1) 0 0 0).operandDefined 1 = true := by decide +kernel
theorem witness_RegisterIsSum_write : (regs 0 0 0 0 0).hasReg 4 ∧ 2 ^ 64 - 1 < 2 ^ (regs 0 0 0 0 0).params.nbits
    ∧ 1 < (regs 0 0 0 0 0).params.nbits / 32 := by decide +kernel
theorem witness_IdleOperandAccess : fresh.inv = true ∧ fresh.status.busy = false ∧ 4 < fresh.params.nreg
    ∧ 1 < fresh.params.nbits / 32 ∧ (fresh.word 4 1).written = false ∧ ((regs 1 1 1 1 1).word 4 1).written = true := by
  decide +kernel
theorem witness_BusyAccesses : (fresh.issue 0).inv = true ∧ (fresh.issue 0).status.busy = true
    ∧ 0 < (fresh.issue 0).params.nreg ∧ ((0x020 : Offset) ≠ 0x010 ∨ (0 : Word).getLsbD 2 = false)
    ∧ 1 < (fresh.issue 0).params.nbits / 32 ∧ (0x1FFC : Offset).toNat % 4 = 0 := by decide +kernel
theorem witness_HostCannotDisturb : contended.status.busy = true
    ∧ ∃ t, hostStep (contended.setEnv (Env.empty.setHost [.write 0x1000 .four 5])) = .next t ∧ t.status.busy = true :=
  ⟨rfl, _, rfl, by decide +kernel⟩
theorem witness_BusError_size : AccessSize.two ≠ .four := by decide
theorem witness_BusError_align : (0x1002 : Offset).toNat % 4 ≠ 0 := by decide
theorem witness_BusError_legal : (∀ a z, HostOp.read 0x1FFC .four = .read a z → z = .four ∧ a.toNat % 4 = 0)
    ∧ ∀ a z v, HostOp.read 0x1FFC .four = .write a z v → z = .four ∧ a.toNat % 4 = 0 :=
  ⟨fun _ _ h => by cases h; decide, fun _ _ _ h => by cases h⟩
theorem witness_HostAccessesInOrder : (0x1FFC : Offset).toNat % 4 = 0 ∧ fresh.status.busy = false
    ∧ (fresh.setEnv (Env.empty.setHost [.write 0x1FFC .four 0])).env.host = .write 0x1FFC .four 0 :: []
    ∧ (fresh.setEnv (Env.empty.setHost [.read 0x1FFC .four])).env.host = .read 0x1FFC .four :: [] := by decide +kernel
/-- Busy, the host's turn, and a write or a read of the last offset pending. -/
def hostTurn (op : HostOp) : State := (fresh.issue 0).setEnv ((Env.empty.setHost [op]).setHold 1)
theorem witness_HostAccessesInOrder_busy :
    (hostTurn (.write 0x1FFC .four 0)).status.busy = true
    ∧ (hostTurn (.write 0x1FFC .four 0)).takeTurn =
        (.host, (fresh.issue 0).setEnv (Env.empty.setHost [.write 0x1FFC .four 0]))
    ∧ (hostTurn (.read 0x1FFC .four)).takeTurn =
        (.host, (fresh.issue 0).setEnv (Env.empty.setHost [.read 0x1FFC .four])) := by decide +kernel
theorem witness_EveryCommand_progress : waiting.status.busy = true
    ∧ ∃ t, step waiting = .next t ∧ t.status.busy = true := ⟨by decide +kernel, _, rfl, by decide +kernel⟩
theorem witness_EveryCommand_draws : ∀ r, Instr.nop ≠ .primetest r := fun _ h => by cases h
theorem witness_CommandFrame : (∃ t, exec .nop fresh = .next t) ∧ ∀ a b c d e, Instr.nop ≠ .xgcd a b c d e :=
  ⟨⟨_, rfl⟩, fun _ _ _ _ _ h => by cases h⟩
theorem witness_ErrorCommitsNothing : ∃ t, engineStep (fresh.issue 0x08000000) = .next t ∧ t.status.errcode ≠ .ok :=
  ⟨_, rfl, by decide +kernel⟩
theorem witness_ResultFlag : ∃ t, exec (.tdiv 0) (regs 251 0 0 0 0) = .next t ∧ t.status.res = true :=
  ⟨_, rfl, by decide +kernel⟩
theorem witness_ResultFlag_value : (∃ t, exec (.mrround 0 1) (regs 2047 2 0 0 0) = .next t ∧ t.status.errcode = .ok)
    ∧ (∃ t, exec (.tdiv 0) (regs 4 0 0 0 0) = .next t ∧ t.status.errcode = .ok)
    ∧ ∃ t, exec (.primetest 0) (regs 3 0 0 0 0) = .next t ∧ t.status.errcode = .ok :=
  ⟨⟨_, rfl, by decide +kernel⟩, ⟨_, rfl, by decide +kernel⟩, _, rfl, by decide +kernel⟩
theorem witness_Xsgn_command : ∃ t, step ((regs 7 11 0 0 0).issue 0x03201034) = .next t
    ∧ t.xsgn ≠ ((regs 7 11 0 0 0).issue 0x03201034).xsgn := ⟨_, rfl, by decide +kernel⟩
/-- XSGN set, and a reset pending. -/
def signed : State := (fresh.setXsgn { sNeg := true, tNeg := false }).setEnv (Env.empty.setHost [.hardReset])
theorem witness_Xsgn_reset : ∃ t, step signed = .next t ∧ t.xsgn ≠ signed.xsgn := ⟨_, rfl, by decide +kernel⟩
theorem witness_Interrupt : (∃ t, engineStep (fresh.issue 0) = .next t) ∧ (0x2 : Word).getLsbD 1 = true
    ∧ (fresh.setStatus (fresh.status.completed .ok false)).status.done = true := ⟨⟨_, rfl⟩, by decide, by decide +kernel⟩
theorem witness_DoneRises : ∃ t, step (fresh.issue 0) = .next t ∧ (fresh.issue 0).status.done = false
    ∧ t.status.done = true := ⟨_, rfl, by decide +kernel, by decide +kernel⟩
/-- OVR and ACCERR set, and the host about to clear both. -/
def sticky : State :=
  (fresh.setStatus fresh.status.overrun.accessError).setEnv (Env.empty.setHost [.write 0x014 .four 0x30])
theorem witness_Sticky : ∃ t, step sticky = .next t ∧ sticky.status.ovr = true ∧ t.status.ovr = false
    ∧ sticky.status.accerr = true ∧ t.status.accerr = false :=
  ⟨_, rfl, by decide +kernel, by decide +kernel, by decide +kernel, by decide +kernel⟩
theorem witness_NopCompletes : fieldOpc 0x00000001 = 0x00 ∧ (0x00000001 : Word) ≠ 0x00000000 := by decide
theorem witness_ModmulResult : (regs 12 16 23 77 0).inv = true ∧ (regs 12 16 23 77 0).hasReg 4
    ∧ (regs 12 16 23 77 0).operand 2 ≠ 0 := by decide +kernel
theorem witness_ModmulResult_zero : (regs 12 16 0 77 0).hasReg 2 ∧ (regs 12 16 0 77 0).operand 2 = 0 := by decide +kernel
theorem witness_illegal_index : ¬ fresh.hasReg 5 ∧ ¬ fresh.hasReg 15 ∧ fresh.hasReg 4 := by decide +kernel
theorem witness_ModmulCorner_one : (regs 5 7 1 0 0).operand 2 = 1 ∧ ∃ t, exec (.modmul 3 0 1 2) (regs 5 7 1 0 0) = .next t :=
  ⟨by decide +kernel, _, rfl⟩
theorem witness_ModmulCorner_factors : (regs 0 1 7 0 0).operand 2 ≠ 0 ∧ (regs 0 1 7 0 0).operand 0 = 0
    ∧ (regs 0 1 7 0 0).operand 1 = 1 ∧ (regs 7 1 7 0 0).operand 2 ≤ (regs 7 1 7 0 0).operand 0 := by decide +kernel
theorem witness_ModmulCorner_largest : (regs (2 ^ 64 - 2) (2 ^ 64 - 2) (2 ^ 64 - 1) 0 0).inv = true
    ∧ (regs (2 ^ 64 - 2) (2 ^ 64 - 2) (2 ^ 64 - 1) 0 0).operand 2 = 2 ^ 64 - 1
    ∧ (regs (2 ^ 64 - 2) (2 ^ 64 - 2) (2 ^ 64 - 1) 0 0).operand 0 = 2 ^ 64 - 2 := by decide +kernel
theorem witness_ModexpResult : (regs 65 17 3233 0 0).inv = true ∧ (regs 65 17 3233 0 0).operand 2 ≠ 0 := by decide +kernel
theorem witness_ModexpCorner : (regs 0 0 2 0 0).operand 1 = 0 ∧ 2 ≤ (regs 0 0 2 0 0).operand 2
    ∧ (regs 0 1 1 0 0).operand 2 = 1 ∧ 1 ≤ (regs 0 1 1 0 0).operand 1 ∧ (regs 7 1 7 0 0).operand 0 % 7 = 0
    ∧ (regs 5 0 0 0 0).operand 2 = 0 ∧ ∃ t, exec (.modexp 0 0 1 2) (regs 0 0 2 0 0) = .next t :=
  ⟨by decide +kernel, by decide +kernel, by decide +kernel, by decide +kernel, by decide +kernel, by decide +kernel, _, rfl⟩
theorem witness_Xgcd : (regs 7 11 0 0 0).inv = true ∧ (regs 7 11 0 0 0).hasReg 4 ∧ (2 : RegIdx) ≠ 3 ∧ (2 : RegIdx) ≠ 4
    ∧ (3 : RegIdx) ≠ 4 ∧ ∃ t, exec (.xgcd 2 0 1 3 4) (regs 7 11 0 0 0) = .next t :=
  ⟨by decide +kernel, by decide +kernel, by decide, by decide, by decide, _, rfl⟩
theorem witness_ModinvResult : (regs 17 3120 0 0 0).operand 1 ≠ 0
    ∧ Nat.gcd ((regs 17 3120 0 0 0).operand 0) ((regs 17 3120 0 0 0).operand 1) = 1 := by decide +kernel
theorem witness_ModinvResult_none : (regs 6 9 0 0 0).operand 1 ≠ 0
    ∧ Nat.gcd ((regs 6 9 0 0 0).operand 0) ((regs 6 9 0 0 0).operand 1) ≠ 1 := by decide +kernel
theorem witness_ModinvResult_zero : (regs 1 0 0 0 0).operand 1 = 0 := by decide +kernel
theorem witness_ModinvCorner : (regs 0 1 0 0 0).operand 1 = 1 ∧ (regs 0 2 0 0 0).operand 0 = 0
    ∧ 2 ≤ (regs 0 2 0 0 0).operand 1 ∧ (regs 1 5 0 0 0).operand 0 = 1
    ∧ ∃ t, exec (.modinv 2 0 1) (regs 0 1 0 0 0) = .next t :=
  ⟨by decide +kernel, by decide +kernel, by decide +kernel, by decide +kernel, _, rfl⟩
theorem witness_TrialDivision_below : 65521 < 256 ^ 2 ∧ trialDivision 256 65521 = true ∧ trialDivision 256 65535 = false := by
  decide +kernel
theorem witness_Mrround : 5 ≤ (regs 5 2 0 0 0).operand 0 ∧ (regs 5 2 0 0 0).operand 0 % 2 = 1
    ∧ 2 ≤ (regs 5 2 0 0 0).operand 1 ∧ (regs 5 3 0 0 0).operand 1 ≤ (regs 5 3 0 0 0).operand 0 - 2
    ∧ (regs 5 4 0 0 0).operand 0 - 2 < (regs 5 4 0 0 0).operand 1 := by decide +kernel
theorem witness_MillerRabinPassesPrimes : Nat.Prime 5 ∧ 5 ≤ 5 ∧ 2 ≤ 3 ∧ 3 ≤ 5 - 2 := by norm_num
theorem witness_DrawnBases :
    (EntropySource.drawBase 5 1 { answers := [word 3], taken := 0 }).1 = some 3
      ∧ (EntropySource.drawBase 5 1 { answers := [failing], taken := 0 }).1 = none := by decide +kernel
theorem witness_PrimetestDecides : (regs 1 0 0 0 0).operand 0 < 2 ∧ (regs 3 0 0 0 0).operand 0 = 3
    ∧ 4 ≤ (regs 4 0 0 0 0).operand 0 ∧ (regs 4 0 0 0 0).operand 0 % 2 = 0 := by decide +kernel
theorem witness_PrimetestDecides_inTable : (regs 251 0 0 0 0).operand 0 = 251 ∧ (regs 251 0 0 0 0).cfg.tdEn = true
    ∧ Nat.Prime 251 ∧ 251 < (regs 251 0 0 0 0).params.tdLimit := ⟨by decide +kernel, by decide, by norm_num, by decide⟩
theorem witness_PrimetestDecides_factor : (regs 9 0 0 0 0).operand 0 = 9 ∧ (regs 9 0 0 0 0).cfg.tdEn = true
    ∧ ¬ Nat.Prime 9 ∧ Nat.Prime 3 ∧ 3 < (regs 9 0 0 0 0).params.tdLimit ∧ 9 % 3 = 0 :=
  ⟨by decide +kernel, by decide, by norm_num, by norm_num, by decide, by decide⟩
theorem witness_PrimetestRounds : (drawing 9 [word 2]).hasReg 0 ∧ 5 ≤ (drawing 9 [word 2]).operand 0
    ∧ (drawing 9 [word 2]).operand 0 % 2 = 1 ∧ (drawing 9 [word 2]).cfg.tdEn = false := by decide +kernel
/-- Each of the three outcomes of the rounds is met: 5 passes three bases; 9 fails the base 2; a draw fails. -/
theorem witness_PrimetestRounds_pass :
    nextHas (exec (.primetest 0) (drawing 5 [word 2, word 3, word 2])) (fun t => t.status.errcode == .ok && t.status.res) = true
      ∧ Draws 5 4 { answers := [word 2, word 3, word 2], taken := 0 } [2, 3, 2] { answers := [], taken := 0 } :=
  ⟨by decide +kernel, by decide +kernel, by decide +kernel, by decide +kernel, rfl⟩
theorem witness_PrimetestRounds_fail :
    nextHas (exec (.primetest 0) (drawing 9 [word 2])) (fun t => t.status.errcode == .ok && !t.status.res) = true
      ∧ Draws 9 4 { answers := [word 2], taken := 0 } [] { answers := [word 2], taken := 0 }
      ∧ EntropySource.drawBase 9 4 { answers := [word 2], taken := 0 } = (some 2, { answers := [], taken := 0 }) :=
  ⟨by decide +kernel, rfl, by decide +kernel⟩
theorem witness_PrimetestRounds_none :
    nextHas (exec (.primetest 0) (drawing 9 [failing])) (fun t => t.status.errcode == .entropy) = true
      ∧ EntropySource.drawBase 9 4 { answers := [failing], taken := 0 } = (none, { answers := [], taken := 0 }) := by
  decide +kernel
theorem witness_PrimetestSound : ∃ t, (drawing 5 [word 2, word 3, word 2]).hasReg 0
    ∧ (drawing 5 [word 2, word 3, word 2]).operand 0 = 5 ∧ Nat.Prime 5
    ∧ exec (.primetest 0) (drawing 5 [word 2, word 3, word 2]) = .next t ∧ t.status.errcode = .ok :=
  ⟨_, by decide +kernel, by decide +kernel, by norm_num, rfl, by decide +kernel⟩
theorem witness_EntropyError : ∃ t, exec (.primetest 0) (drawing 5 [failing]) = .next t ∧ t.status.errcode = .entropy :=
  ⟨_, rfl, by decide +kernel⟩
theorem witness_ErrorCodes : (regs 1 0 0 0 0).legal (.modinv 2 0 1) = true ∧ (regs 1 0 0 0 0).legal (.modinv 5 0 1) = false
    ∧ (∃ t, exec (.modinv 2 0 1) (regs 1 0 0 0 0) = .next t) ∧ ∃ t, exec (.modinv 5 0 1) (regs 1 0 0 0 0) = .next t :=
  ⟨by decide +kernel, by decide +kernel, ⟨_, rfl⟩, _, rfl⟩
theorem witness_StepKeepsInv : contended.inv = true ∧ ∃ t, step contended = .next t := ⟨by decide +kernel, _, rfl⟩

end Sys2Proof.Tests
end

section
/-!
What legal build parameters (R7) give the proofs.
-/
namespace Sys2Proof

theorem Params.mrRoundsReset_ne_zero (p : Params) (h : p.legal = true) : p.mrRoundsReset ≠ 0 := by
  simp only [Params.legal, Bool.and_eq_true, bne_iff_ne] at h
  exact h.2

/-- The ranges of R7 that the fields of PARAM and PARAM2 must hold. -/
theorem Params.bounds_of_legal (p : Params) (h : p.legal = true) :
    p.nbits ≤ 4096 ∧ p.nreg ≤ 16 ∧ p.entMaxTries ≤ 65535 := by
  simp only [Params.legal, Bool.and_eq_true, decide_eq_true_eq] at h
  omega

end Sys2Proof
end

section
/-!
What keeps the invariant, the build parameters and the other agents: one rule per shared operation, then per agent, then
for a step; and that the completion of a running command is taken.
-/
namespace Sys2Proof.Machine

/-! ### The invariant under the shared operations -/

theorem State.inv_iff (s : State) :
    s.inv = true ↔ s.params.legal = true ∧ s.fileWf = true ∧ s.cfg.mrRounds ≠ 0 ∧ s.status.wf = true := by
  simp [State.inv, and_assoc]

/-- The invariant says nothing of CTRL.IE, CMD, XSGN and the other agents. -/
theorem State.inv_congr (s t : State) (hp : t.params = s.params) (hx : t.x = s.x) (hc : t.cfg = s.cfg)
    (ht : t.status = s.status) : t.inv = s.inv := by
  simp [State.inv, State.fileWf_congr s t hx hp, hp, hc, ht]

@[simp] theorem State.setEnv_inv (s : State) (e : Env) : (s.setEnv e).inv = s.inv := s.inv_congr _ rfl rfl rfl rfl

@[simp] theorem State.setIe_inv (s : State) (b : Bool) : (s.setIe b).inv = s.inv := s.inv_congr _ rfl rfl rfl rfl

theorem State.setStatus_inv (s : State) (t : Status) (h : s.inv = true) (ht : t.wf = true) :
    (s.setStatus t).inv = true := by
  obtain ⟨hp, hx, hc, -⟩ := s.inv_iff.mp h
  exact (State.inv_iff _).mpr ⟨hp, hx, hc, ht⟩

theorem State.setCfg_inv (s : State) (c : Cfg) (h : s.inv = true) (hc : c.mrRounds ≠ 0) : (s.setCfg c).inv = true := by
  obtain ⟨hp, hx, -, ht⟩ := s.inv_iff.mp h
  exact (State.inv_iff _).mpr ⟨hp, hx, hc, ht⟩

theorem State.params_legal_of_inv (s : State) (h : s.inv = true) : s.params.legal = true := by
  obtain ⟨hp, -, -, -⟩ := s.inv_iff.mp h
  exact hp

theorem State.status_wf_of_inv (s : State) (h : s.inv = true) : s.status.wf = true := by
  obtain ⟨-, -, -, ht⟩ := s.inv_iff.mp h
  exact ht

theorem State.commit_inv (s : State) (r : CmdResult) (h : s.inv = true) : (s.commit r).inv = true := by
  obtain ⟨hp, hx, hc, -⟩ := s.inv_iff.mp h
  rw [State.inv_iff, State.commit_params, State.commit_cfg, State.commit_status]
  exact ⟨hp, s.commit_fileWf r hx, hc, Status.wf_completed _ _ _ r.code_flag⟩

theorem State.issue_inv (s : State) (w : Word) (h : s.inv = true) : (s.issue w).inv = true := by
  obtain ⟨hp, hx, hc, -⟩ := s.inv_iff.mp h
  exact (State.inv_iff _).mpr ⟨hp, hx, hc, s.status.wf_issued⟩

theorem State.writeWord_inv (s : State) (i j : Nat) (v : Word) (h : s.inv = true) : (s.writeWord i j v).inv = true := by
  obtain ⟨hp, hx, hc, ht⟩ := s.inv_iff.mp h
  exact (State.inv_iff _).mpr ⟨hp, s.writeWord_fileWf i j v hx, hc, ht⟩

theorem Status.wf_atReset : Status.atReset.wf = true := rfl

/-- A reset of a block with legal build parameters gives the invariant, whatever stood in the block before. -/
theorem State.resetBlock_inv (s : State) (h : s.params.legal = true) : s.resetBlock.inv = true :=
  (State.inv_iff _).mpr ⟨h, State.resetWith_fileWf _ _, s.params.mrRoundsReset_ne_zero h, Status.wf_atReset⟩

/-! ### The invariant under a bus write -/

/-- MR_ROUNDS is WARL: no write makes it 0 (R33). -/
theorem Cfg.write_mrRounds_ne_zero (c : Cfg) (v : Word) (h : c.mrRounds ≠ 0) : (c.write v).mrRounds ≠ 0 := by
  unfold Cfg.write
  split
  · exact h
  · assumption

theorem State.writeCtrl_inv (s : State) (v : Word) (h : s.inv = true) : (s.writeCtrl v).inv = true := by
  have hie : (s.setIe (v.getLsbD 0)).inv = true := by simpa using h
  unfold State.writeCtrl State.abortIf
  split
  · exact s.resetBlock_inv (s.params_legal_of_inv h)
  · split
    · exact State.commit_inv _ _ hie
    · exact hie

theorem State.writeStatus_inv (s : State) (v : Word) (h : s.inv = true) : (s.writeStatus v).inv = true :=
  s.setStatus_inv _ h (Status.wf_writeOneToClear _ v (s.status_wf_of_inv h))

/-- A write dropped while BUSY = 1 (R68). -/
theorem State.accessError_inv (s : State) (h : s.inv = true) : (s.setStatus s.status.accessError).inv = true :=
  s.setStatus_inv _ h (Status.wf_accessError _ (s.status_wf_of_inv h))

theorem State.writeCfg_inv (s : State) (v : Word) (h : s.inv = true) : (s.writeCfg v).inv = true := by
  obtain ⟨-, -, hc, -⟩ := s.inv_iff.mp h
  unfold State.writeCfg
  split
  · exact s.accessError_inv h
  · exact s.setCfg_inv _ h (s.cfg.write_mrRounds_ne_zero v hc)

theorem State.writeCmd_inv (s : State) (w : Word) (h : s.inv = true) : (s.writeCmd w).inv = true := by
  unfold State.writeCmd
  split
  · exact s.setStatus_inv _ h (Status.wf_overrun _ (s.status_wf_of_inv h))
  · exact s.issue_inv w h

theorem State.writeOperandWord_inv (s : State) (i j : Nat) (v : Word) (h : s.inv = true) :
    (s.writeOperandWord i j v).inv = true := by
  unfold State.writeOperandWord
  split
  · exact s.accessError_inv h
  · exact s.writeWord_inv i j v h

theorem State.busWrite_inv (s : State) (a : Offset) (v : Word) (h : s.inv = true) : (s.busWrite a v).inv = true := by
  rcases s.busWrite_cases a v with e | e | e | e | e | ⟨i, j, e⟩ <;> rw [e]
  · exact h
  · exact s.writeCtrl_inv v h
  · exact s.writeStatus_inv v h
  · exact s.writeCfg_inv v h
  · exact s.writeCmd_inv v h
  · exact s.writeOperandWord_inv i j v h

/-! ### The invariant under a step -/

theorem hostStep_inv (s t : State) (h : s.inv = true) (ht : hostStep s = .next t) : t.inv = true := by
  rcases hostStep_cases s t ht with ⟨e, rfl⟩ | ⟨a, v, rest, -, rfl⟩ | ⟨rest, -, rfl⟩
  · simpa using h
  · exact State.busWrite_inv _ a v (by simpa using h)
  · exact State.resetBlock_inv _ (s.params_legal_of_inv h)

theorem exec_inv (i : Instr) (s t : State) (h : s.inv = true) (ht : exec i s = .next t) : t.inv = true := by
  obtain ⟨hp, hx, hc, -⟩ := s.inv_iff.mp h
  obtain ⟨ep, -, ec, -⟩ := exec_control i s t ht
  have hst : t.status.wf = true := by
    rw [exec_status i s t ht]
    split
    · exact Status.wf_completed _ _ _ (resultOf s i).code_flag
    · exact Status.wf_completed _ _ _ (.inr rfl)
  exact t.inv_iff.mpr ⟨ep ▸ hp, exec_fileWf i s t ht hx, ec ▸ hc, hst⟩

theorem engineStep_inv (s t : State) (h : s.inv = true) (ht : engineStep s = .next t) : t.inv = true := by
  rcases engineStep_cases s with ⟨i, -, e⟩ | ⟨_, -, e⟩
  · exact exec_inv i s t h (e ▸ ht)
  · cases e.symm.trans ht
    exact s.commit_inv _ h

theorem step_inv (s t : State) (h : s.inv = true) (ht : step s = .next t) : t.inv = true := by
  rcases step_cases s with ⟨-, e⟩ | ⟨k, e⟩
  · exact engineStep_inv s t h (e ▸ ht)
  · exact hostStep_inv (s.setEnv (s.env.setHold k)) t (by simpa using h) (e ▸ ht)

/-! ### The build parameters -/

theorem hostStep_params (s t : State) (ht : hostStep s = .next t) : t.params = s.params := by
  rcases hostStep_cases s t ht with ⟨e, rfl⟩ | ⟨a, v, rest, -, rfl⟩ | ⟨rest, -, rfl⟩
  · rfl
  · simp
  · rfl

theorem engineStep_params (s t : State) (ht : engineStep s = .next t) : t.params = s.params := by
  rcases engineStep_cases s with ⟨i, -, e⟩ | ⟨_, -, e⟩
  · exact (exec_control i s t (e ▸ ht)).1
  · cases e.symm.trans ht
    simp

/-- No step changes a build parameter (R7). -/
theorem step_params (s t : State) (ht : step s = .next t) : t.params = s.params := by
  rcases step_cases s with ⟨-, e⟩ | ⟨k, e⟩
  · exact engineStep_params s t (e ▸ ht)
  · exact hostStep_params (s.setEnv (s.env.setHold k)) t (e ▸ ht)

/-! ### ID, PARAM and PARAM2 -/

theorem State.busRead_id (s : State) : s.busRead 0x000 = idWord := rfl

theorem State.busRead_param (s : State) : s.busRead 0x004 = paramWord s.params := rfl

theorem State.busRead_param2 (s : State) : s.busRead 0x008 = param2Word s.params := rfl

theorem paramWord_toNat (p : Params) (h : p.legal = true) : (paramWord p).toNat = p.nbits + 2 ^ 16 * p.nreg := by
  obtain ⟨hb, hr, -⟩ := p.bounds_of_legal h
  rw [paramWord, BitVec.toNat_ofNat]
  omega

theorem param2Word_toNat (p : Params) (h : p.legal = true) :
    (param2Word p).toNat = p.tdLimit % 2 ^ 16 + 2 ^ 16 * p.entMaxTries := by
  obtain ⟨-, -, he⟩ := p.bounds_of_legal h
  rw [param2Word, BitVec.toNat_ofNat]
  omega

/-- PARAM's fields (R28). -/
theorem paramWord_fields (p : Params) (h : p.legal = true) :
    ((paramWord p).extractLsb' 0 16).toNat = p.nbits ∧ ((paramWord p).extractLsb' 16 8).toNat = p.nreg
      ∧ (paramWord p).extractLsb' 24 8 = 0 := by
  obtain ⟨hb, hr, -⟩ := p.bounds_of_legal h
  simp only [← BitVec.toNat_inj, BitVec.extractLsb'_toNat, paramWord_toNat p h, Nat.shiftRight_eq_div_pow,
    BitVec.ofNat_eq_ofNat, BitVec.toNat_ofNat]
  omega

/-- PARAM2's fields (R29). -/
theorem param2Word_fields (p : Params) (h : p.legal = true) :
    ((param2Word p).extractLsb' 0 16).toNat = p.tdLimit % 65536
      ∧ ((param2Word p).extractLsb' 16 16).toNat = p.entMaxTries := by
  obtain ⟨-, -, he⟩ := p.bounds_of_legal h
  simp only [BitVec.extractLsb'_toNat, param2Word_toNat p h, Nat.shiftRight_eq_div_pow]
  omega

/-! ### The other agents under a command -/

theorem State.noteReads_agents (s : State) (rs : List RegIdx) :
    SameAgents s (s.noteReads rs) ∧ (s.noteReads rs).env.entropy = s.env.entropy := by
  rcases s.noteReads_cases rs with ⟨-, e⟩ | ⟨-, e⟩ <;> rw [e] <;> exact ⟨⟨rfl, rfl, rfl, rfl⟩, rfl⟩

/-- The end of a command touches neither the other agents nor bus_rdata. -/
theorem State.finish_agents (s : State) (i : Instr) (r : CmdResult) :
    SameAgents s (s.finish i r) ∧ (s.finish i r).env.entropy = s.env.entropy := by
  rcases s.finish_cases i r with ⟨-, e⟩ | ⟨-, e⟩ <;> rw [e]
  · exact ⟨⟨rfl, rfl, rfl, rfl⟩, rfl⟩
  · simpa only [SameAgents, State.commit_env] using s.noteReads_agents (sources i)

/-- The record of R25 after the end of a command: a legal one has read its sources. -/
theorem State.finish_unwritten (s : State) (i : Instr) (r : CmdResult) :
    (s.finish i r).env.unwritten = (s.env.unwritten || (s.legal i && !(sources i).all s.operandDefined)) := by
  rcases s.finish_cases i r with ⟨h, e⟩ | ⟨h, e⟩ <;> simp [e, h]

theorem exec_agents (i : Instr) (s t : State) (h : exec i s = .next t) : SameAgents s t := by
  rw [exec_eq] at h
  cases h
  obtain ⟨src, e⟩ := afterDraws_eq i s
  rw [e]
  exact (State.finish_agents _ _ _).1

/-- Only PRIMETEST draws from the entropy source (R40). -/
theorem exec_entropy (i : Instr) (s t : State) (h : exec i s = .next t) (hi : ∀ r, i ≠ .primetest r) :
    t.env.entropy = s.env.entropy := by
  rw [exec_eq, afterDraws_of_ne i s hi] at h
  cases h
  exact (State.finish_agents _ _ _).2

theorem exec_unwritten (i : Instr) (s t : State) (h : exec i s = .next t) :
    t.env.unwritten = (s.env.unwritten || (s.legal i && !(sources i).all s.operandDefined)) := by
  rw [exec_eq] at h
  cases h
  obtain ⟨src, e⟩ := afterDraws_eq i s
  rw [e, State.finish_unwritten]
  rfl

/-- Every end of a command is a completion: BUSY falls, DONE rises, OVR and ACCERR stay (R86). -/
theorem exec_completes (i : Instr) (s t : State) (h : exec i s = .next t) :
    ∃ code res, t.status = s.status.completed code res := by
  rw [exec_status i s t h]
  split
  · exact ⟨_, _, rfl⟩
  · exact ⟨_, _, rfl⟩

/-! ### Whose step it is while BUSY = 1 -/

theorem step_eq_engineStep (s : State) (hb : s.status.busy = true) (h : s.env.host = [] ∨ s.env.hold = 0) :
    step s = engineStep s := by
  by_cases hh : s.env.host = []
  · simp [step, State.schedule, hb, hh, agentStep]
  · rcases step_busy s hb hh with ⟨-, e⟩ | ⟨k, hk, -⟩
    · exact e
    · exact absurd hk (by simp [h.resolve_left hh])

theorem step_eq_hostStep (s : State) (k : Nat) (hb : s.status.busy = true) (hh : s.env.host ≠ [])
    (hk : s.env.hold = k + 1) : step s = hostStep (s.setEnv (s.env.setHold k)) := by
  rcases step_busy s hb hh with ⟨h0, -⟩ | ⟨l, hl, e⟩
  · omega
  · obtain rfl : l = k := by omega
    exact e

theorem engineStep_eq_exec (s : State) (i : Instr) (h : decode s.cmd = .ok i) : engineStep s = exec i s := by
  simp [engineStep, State.fetch, h]

/-! ### The completion is taken -/

theorem hostStep_next_or_fault (s : State) : (∃ t, hostStep s = .next t) ∨ hostStep s = .fault .busError := by
  unfold hostStep
  split
  · exact .inl ⟨s, rfl⟩
  · exact hostOp_next_or_fault s _ _

/-- A step while BUSY = 1 ends the command, stops by a bus fault, or uses up latency (R15). -/
theorem step_busy_progress (s : State) (hb : s.status.busy = true) :
    (∃ t, step s = .next t ∧ t.status.busy = false) ∨ step s = .fault .busError
      ∨ ∃ t, step s = .next t ∧ t.env.hold < s.env.hold := by
  by_cases h : s.env.host = [] ∨ s.env.hold = 0
  · rw [step_eq_engineStep s hb h]
    exact .inl (engineStep_ends s)
  · obtain ⟨hh, h0⟩ := not_or.mp h
    obtain ⟨k, hk⟩ := Nat.exists_eq_succ_of_ne_zero h0
    rw [step_eq_hostStep s k hb hh hk]
    rcases hostStep_next_or_fault (s.setEnv (s.env.setHold k)) with ⟨t, ht⟩ | hf
    · have hold : t.env.hold = k := hostStep_hold (s.setEnv (s.env.setHold k)) t hb ht
      exact .inr (.inr ⟨t, ht, by omega⟩)
    · exact .inr (.inl hf)

theorem step_busy_hold_lt (s t : State) (hb : s.status.busy = true) (ht : step s = .next t)
    (htb : t.status.busy = true) : t.env.hold < s.env.hold := by
  rcases step_busy_progress s hb with ⟨u, hu, hub⟩ | hf | ⟨u, hu, hlt⟩
  · cases hu.symm.trans ht
    simp [hub] at htb
  · cases hf.symm.trans ht
  · cases hu.symm.trans ht
    exact hlt

theorem run_succ_of_next (n : Nat) (s t : State) (h : step s = .next t) :
    Sys2Proof.core.run (n + 1) s = Sys2Proof.core.run n t := by
  have hc : Sys2Proof.core.step s = .next t := h
  simp only [Host.Core.run, hc]

theorem run_succ_of_fault (n : Nat) (s : State) (f : Fault) (h : step s = .fault f) :
    Sys2Proof.core.run (n + 1) s = .fault f := by
  have hc : Sys2Proof.core.step s = .fault f := h
  simp only [Host.Core.run, hc]

/-- `s.OverWithin k`: within k steps the machine has left BUSY = 1 or has stopped by a bus fault. -/
def State.OverWithin (s : State) (k : Nat) : Prop :=
  ∃ n, n ≤ k ∧ (Sys2Proof.core.run n s = .fault .busError
    ∨ ∃ t : State, Sys2Proof.core.run n s = .next t ∧ t.status.busy = false)

theorem State.overWithin_of_not_busy (s : State) (k : Nat) (h : s.status.busy = false) : s.OverWithin k :=
  ⟨0, Nat.zero_le k, .inr ⟨s, rfl, h⟩⟩

theorem State.overWithin_succ (s t : State) (k : Nat) (h : step s = .next t) (ht : t.OverWithin k) :
    s.OverWithin (k + 1) := by
  obtain ⟨n, hn, hrun⟩ := ht
  exact ⟨n + 1, by omega, by rwa [run_succ_of_next n s t h]⟩

theorem State.OverWithin.mono {s : State} {k l : Nat} (h : s.OverWithin k) (hkl : k ≤ l) : s.OverWithin l := by
  obtain ⟨n, hn, hrun⟩ := h
  exact ⟨n, by omega, hrun⟩

/-- The latency left bounds the run: each step that does not end the command uses up one of it at least. -/
theorem State.overWithin_hold (s : State) : s.OverWithin (s.env.hold + 1) := by
  induction hk : s.env.hold using Nat.strong_induction_on generalizing s with
  | _ k ih =>
    by_cases hb : s.status.busy = true
    · rcases step_busy_progress s hb with ⟨t, ht, htb⟩ | hf | ⟨t, ht, hlt⟩
      · exact s.overWithin_succ t k ht (t.overWithin_of_not_busy k htb)
      · exact ⟨1, by omega, .inl (run_succ_of_fault 0 s _ hf)⟩
      · exact s.overWithin_succ t k ht ((ih _ (hk ▸ hlt) t rfl).mono (by omega))
    · exact s.overWithin_of_not_busy _ (by simpa using hb)

end Sys2Proof.Machine
end

section
/-!
The statements of the family 00_scope: a running command's step is exec of the decoded word, its completion is taken, ID,
PARAM and PARAM2 are constant, and every step keeps the invariant.
-/
namespace Sys2Proof.Machine

/-- Settles O60: the host's step and the engine's each keep the invariant, operation by operation. -/
theorem stepKeepsInv : Obligations.StepKeepsInv := step_inv

/-- Settles O18: the fields by arithmetic on legal parameters, the constancy since no step changes a build parameter. -/
theorem identityRegistersAreConstant : Obligations.IdentityRegistersAreConstant := by
  refine ⟨State.busRead_id, fun s h => ?_, fun s h => ?_, fun s t ht => ?_⟩
  · obtain ⟨hbits, hreg, hzero⟩ := paramWord_fields s.params h
    obtain ⟨hlimit, htries⟩ := param2Word_fields s.params h
    exact ⟨hbits, hreg, hzero, hlimit, htries⟩
  · rw [State.busRead_param, State.busRead_param2, h]
    decide
  · simp only [State.busRead_id, State.busRead_param, State.busRead_param2, step_params s t ht, and_self]

/-- Settles O28: the frame from what the end of a command does, the bound by induction on the latency left. -/
theorem everyCommandCompletes : Obligations.EveryCommandCompletes := by
  refine ⟨fun i s => ?_, step_busy_hold_lt, fun s _ => s.overWithin_hold⟩
  obtain ⟨t, ht⟩ : ∃ t, exec i s = .next t := ⟨_, exec_eq i s⟩
  obtain ⟨code, res, hst⟩ := exec_completes i s t ht
  refine ⟨t, ht, ?_, ?_, ?_, ?_, exec_control i s t ht, exec_agents i s t ht, exec_entropy i s t ht,
    exec_unwritten i s t ht⟩ <;> simp [hst]

/-- Settles O8: the schedule while BUSY = 1, and the engine's step on a word that decodes. -/
theorem stepRunsDecodedCommand : Obligations.StepRunsDecodedCommand := by
  intro s i hb hi
  refine ⟨fun h => ?_, fun k hh hk => step_eq_hostStep s k hb hh hk⟩
  rw [step_eq_engineStep s hb h, engineStep_eq_exec s i hi]

end Sys2Proof.Machine
end

section
/-!
The words that reads of CTRL, STATUS, CFG and XSGN give (R30 to R35), field by field, and which bits of a written word
their writes look at.
-/
namespace Sys2Proof.Machine

/-! ### Bits and masks of a word -/

theorem getLsbD_eq_of_toNat_div {n : Nat} (w : BitVec n) (i : Nat) (b : Bool) (h : w.toNat / 2 ^ i % 2 = b.toNat) :
    w.getLsbD i = b := by
  have hbit : (w.getLsbD i).toNat = b.toNat := (Nat.toNat_testBit w.toNat i).trans h
  revert hbit
  cases w.getLsbD i <;> cases b <;> simp

theorem extractLsb'_eq_of_toNat_div {n : Nat} (w : BitVec n) (k len : Nat) (f : BitVec len)
    (h : w.toNat / 2 ^ k % 2 ^ len = f.toNat) : w.extractLsb' k len = f := by
  rw [← BitVec.toNat_inj, BitVec.extractLsb'_toNat, Nat.shiftRight_eq_div_pow, h]

theorem extractLsb'_eq_zero_of_toNat_div {n : Nat} (w : BitVec n) (k len : Nat) (h : w.toNat / 2 ^ k % 2 ^ len = 0) :
    w.extractLsb' k len = 0 :=
  extractLsb'_eq_of_toNat_div w k len 0 h

/-- A mask over a field that is zero gives zero. -/
theorem and_fieldMask_eq_zero (w : Word) (k len : Nat) (h : w.extractLsb' k len = 0) :
    w &&& BitVec.ofNat 32 ((2 ^ len - 1) * 2 ^ k) = 0 := by
  apply BitVec.eq_of_getLsbD_eq
  intro i hi
  rw [BitVec.getLsbD_and, BitVec.getLsbD_ofNat, Nat.testBit_mul_two_pow, Nat.testBit_two_pow_sub_one]
  by_cases hin : k ≤ i ∧ i - k < len
  · have hbit := congrArg (·.getLsbD (i - k)) h
    simp only [BitVec.getLsbD_extractLsb', hin.2, Nat.add_sub_cancel' hin.1] at hbit
    simp [show w.getLsbD i = false by simpa using hbit]
  · rw [not_and] at hin
    by_cases hk : k ≤ i <;> simp [hk, hin]

/-! ### CTRL (R30) -/

theorem State.busRead_ctrl (s : State) : s.busRead 0x010 = ctrlWord s.ie := rfl

theorem ctrlWord_reserved (ie : Bool) : (ctrlWord ie).extractLsb' 1 31 = 0 := by cases ie <;> rfl

/-- A CTRL write looks at IE, ABORT and SRST alone. -/
theorem State.writeCtrl_congr (s : State) (v w : Word) (h0 : v.getLsbD 0 = w.getLsbD 0)
    (h1 : v.getLsbD 1 = w.getLsbD 1) (h2 : v.getLsbD 2 = w.getLsbD 2) : s.writeCtrl v = s.writeCtrl w := by
  unfold State.writeCtrl
  rw [h0, h1, h2]

/-! ### STATUS (R31, R32) -/

theorem State.busRead_status (s : State) : s.busRead 0x014 = s.status.toWord := rfl

theorem State.busWrite_status (s : State) (v : Word) : s.busWrite 0x014 v = s.writeStatus v := rfl

theorem ErrCode.number_le (c : ErrCode) : c.number ≤ 5 := by cases c <;> decide

/-- ERR is 1 iff ERRCODE is an error (R31). -/
theorem Status.err_iff (t : Status) : t.err = true ↔ t.errcode ≠ .ok := by
  unfold Status.err
  cases t.errcode <;> decide

/-- How much each field of STATUS adds to the word at most. -/
theorem Status.toNat_bounds (t : Status) :
    t.busy.toNat ≤ 1 ∧ t.done.toNat ≤ 1 ∧ t.err.toNat ≤ 1 ∧ t.res.toNat ≤ 1 ∧ t.ovr.toNat ≤ 1 ∧ t.accerr.toNat ≤ 1
      ∧ t.errcode.number ≤ 5 :=
  ⟨t.busy.toNat_le, t.done.toNat_le, t.err.toNat_le, t.res.toNat_le, t.ovr.toNat_le, t.accerr.toNat_le,
    t.errcode.number_le⟩

theorem Status.toWord_toNat (t : Status) :
    t.toWord.toNat = t.busy.toNat + 2 * t.done.toNat + 4 * t.err.toNat + 8 * t.res.toNat + 16 * t.ovr.toNat
      + 32 * t.accerr.toNat + 256 * t.errcode.number := by
  have := t.toNat_bounds
  rw [Status.toWord, BitVec.toNat_ofNat]
  omega

/-- The six flags of STATUS, bits 0 to 5. -/
theorem Status.toWord_flags (t : Status) :
    t.toWord.getLsbD 0 = t.busy ∧ t.toWord.getLsbD 1 = t.done ∧ t.toWord.getLsbD 2 = t.err
      ∧ t.toWord.getLsbD 3 = t.res ∧ t.toWord.getLsbD 4 = t.ovr ∧ t.toWord.getLsbD 5 = t.accerr := by
  have := t.toNat_bounds
  refine ⟨?_, ?_, ?_, ?_, ?_, ?_⟩ <;> (apply getLsbD_eq_of_toNat_div; rw [t.toWord_toNat]; omega)

/-- ERRCODE stands in bits 11:8, and the reserved bits are 0. -/
theorem Status.toWord_fields (t : Status) :
    (t.toWord.extractLsb' 8 4).toNat = t.errcode.number ∧ t.toWord.extractLsb' 6 2 = 0
      ∧ t.toWord.extractLsb' 12 20 = 0 := by
  have := t.toNat_bounds
  refine ⟨?_, extractLsb'_eq_zero_of_toNat_div _ _ _ ?_, extractLsb'_eq_zero_of_toNat_div _ _ _ ?_⟩
  · rw [BitVec.extractLsb'_toNat, Nat.shiftRight_eq_div_pow, t.toWord_toNat]
    omega
  all_goals
    rw [t.toWord_toNat]
    omega

/-- A STATUS write looks at bits 1, 4 and 5 alone. -/
theorem State.writeStatus_congr (s : State) (v w : Word) (h1 : v.getLsbD 1 = w.getLsbD 1)
    (h4 : v.getLsbD 4 = w.getLsbD 4) (h5 : v.getLsbD 5 = w.getLsbD 5) : s.writeStatus v = s.writeStatus w := by
  unfold State.writeStatus Status.writeOneToClear
  rw [h1, h4, h5]

/-- While BUSY = 1, DONE is already 0 (R32). -/
theorem Status.done_of_busy (t : Status) (h : t.wf = true) (hb : t.busy = true) : t.done = false := by
  simp only [Status.wf, hb, Bool.not_true, Bool.false_or, Bool.and_eq_true, Bool.not_eq_true'] at h
  obtain ⟨⟨⟨hd, -⟩, -⟩, -⟩ := h
  exact hd

/-! ### CFG (R33) -/

theorem State.busRead_cfg (s : State) : s.busRead 0x018 = s.cfg.toWord := rfl

theorem State.busWrite_cfg (s : State) (v : Word) : s.busWrite 0x018 v = s.writeCfg v := rfl

theorem Cfg.toWord_fields (c : Cfg) :
    c.toWord.extractLsb' 0 8 = c.mrRounds ∧ c.toWord.getLsbD 8 = c.tdEn ∧ c.toWord.extractLsb' 9 23 = 0 := by
  have := c.mrRounds.isLt
  have := c.tdEn.toNat_le
  have hw : c.toWord.toNat = c.mrRounds.toNat + 256 * c.tdEn.toNat := by
    rw [Cfg.toWord, BitVec.toNat_ofNat]
    omega
  refine ⟨extractLsb'_eq_of_toNat_div _ _ _ _ ?_, getLsbD_eq_of_toNat_div _ _ _ ?_,
    extractLsb'_eq_zero_of_toNat_div _ _ _ ?_⟩ <;> (rw [hw]; omega)

/-- A CFG write looks at MR_ROUNDS and TD_EN alone. -/
theorem State.writeCfg_congr (s : State) (v w : Word) (hm : v.extractLsb' 0 8 = w.extractLsb' 0 8)
    (ht : v.getLsbD 8 = w.getLsbD 8) : s.writeCfg v = s.writeCfg w := by
  unfold State.writeCfg Cfg.write
  rw [hm, ht]

/-! ### XSGN (R35) and PARAM (R28) -/

theorem State.busRead_xsgn (s : State) : s.busRead 0x020 = s.xsgn.toWord := rfl

theorem Xsgn.toWord_fields (g : Xsgn) :
    g.toWord.getLsbD 0 = g.sNeg ∧ g.toWord.getLsbD 1 = g.tNeg ∧ g.toWord.extractLsb' 2 30 = 0 := by
  obtain ⟨sNeg, tNeg⟩ := g
  cases sNeg <;> cases tNeg <;> decide

/-- Bits 31:24 of PARAM are 0, whatever the parameters. -/
theorem paramWord_reserved (p : Params) : (paramWord p).extractLsb' 24 8 = 0 := by
  apply extractLsb'_eq_zero_of_toNat_div
  rw [paramWord, BitVec.toNat_ofNat]
  omega

/-! ### Reserved offsets (R64, R65) -/

theorem target_of_reservedOffset (p : Params) (a : Offset) (h : reservedOffset p a) : target p a = .reserved := by
  have hx : 0x1000 ≤ xaddr p p.nreg 0 := by simp only [xaddr]; omega
  have hreg : ∀ b : Offset, b.toNat < 0x00C ∨ (0x00C < b.toNat ∧ b.toNat < 0x024) → a ≠ b := by
    rintro b hb rfl
    rcases h with rfl | h | h
    · simp at hb
    all_goals omega
  have hwin : ¬ (0x1000 ≤ a.toNat ∧ a.toNat < xaddr p p.nreg 0) := by
    rcases h with rfl | h | h
    · simp
    all_goals omega
  simp (disch := decide) only [target, hreg, hwin, if_false]

theorem State.busRead_reserved (s : State) (a : Offset) (h : target s.params a = .reserved) : s.busRead a = 0 := by
  rw [State.busRead, h]
  rfl

theorem State.busWrite_reserved (s : State) (a : Offset) (v : Word) (h : target s.params a = .reserved) :
    s.busWrite a v = s := by
  rw [State.busWrite, h]
  rfl

theorem State.answerRead_reserved (s : State) (a : Offset) (h : target s.params a = .reserved) :
    s.answerRead a = s.setEnv (s.env.setRdata 0) := by
  simp only [State.answerRead, State.busRead_reserved s a h, h]
  rfl

/-- An aligned 32-bit access is legal (R61), so it has its effect. -/
theorem hostOp_aligned (s : State) (rest : List HostOp) (a : Offset) (v : Word) (h : a.extractLsb' 0 2 = 0) :
    hostOp s rest (.write a .four v) = .next ((s.setEnv (s.env.setHost rest)).busWrite a v)
      ∧ hostOp s rest (.read a .four) = .next ((s.setEnv (s.env.setHost rest)).answerRead a) := by
  have hl : legalAccess a .four = true := by simp [legalAccess, h]
  simp only [hostOp, hl, if_true, and_self]

end Sys2Proof.Machine
end

section
/-!
The operand file as words and as values (R23), and what a command, the host and a step can change of it and of XSGN.
-/
namespace Sys2Proof

/-- Legal widths are whole numbers of words (R7). -/
theorem Params.words_mul_of_legal (p : Params) (h : p.legal = true) : 32 * p.words = p.nbits := by
  simp only [Params.legal, Bool.and_eq_true, beq_iff_eq] at h
  simp only [Params.words]
  omega

end Sys2Proof

namespace Sys2Proof.Machine

/-! ### Words and values of a register -/

/-- The value of k words as the sum of what reads of them give. -/
theorem wordsValue_eq_sum (draw i : Nat) (ws : List OpWord) (j : Nat) :
    wordsValue draw i j ws =
      ∑ k ∈ Finset.range ws.length, ((ws.getD k OpWord.atReset).value draw i (j + k)).toNat * 2 ^ (32 * k) := by
  induction ws generalizing j with
  | nil => rfl
  | cons w ws ih =>
    have htail : ∀ k, ((ws.getD k OpWord.atReset).value draw i (j + 1 + k)).toNat * 2 ^ (32 * k) * 2 ^ 32
        = (((w :: ws).getD (k + 1) OpWord.atReset).value draw i (j + (k + 1))).toNat * 2 ^ (32 * (k + 1)) := by
      intro k
      rw [List.getD_cons_succ, Nat.add_right_comm, Nat.add_assoc, mul_assoc, ← pow_add, mul_add_one]
    simp only [wordsValue, ih, List.length_cons, Finset.sum_range_succ', mul_comm (2 ^ 32), Finset.sum_mul, htail]
    rw [add_comm]
    simp

/-- Word j of what a command writes for v. -/
theorem wordsOf_getD (k v j : Nat) (d : OpWord) (h : j < k) :
    (wordsOf k v).getD j d = { val := BitVec.ofNat 32 (v / 2 ^ (32 * j)), written := true } := by
  induction k generalizing v j with
  | zero => omega
  | succ k ih =>
    cases j with
    | zero => simp [wordsOf]
    | succ j =>
      rw [wordsOf, List.getD_cons_succ, ih _ _ (by omega), Nat.div_div_eq_div_mul, ← pow_add]
      congr 4
      omega

/-- A register whose words are all defined is the sum of the stored words. -/
theorem State.operand_eq_sum (s : State) (r : RegIdx) (hd : s.operandDefined r = true) :
    s.operand r = ∑ j ∈ Finset.range (s.reg r.toNat).length, (s.word r.toNat j).val.toNat * 2 ^ (32 * j) := by
  rw [State.operand, wordsValue_eq_sum]
  refine Finset.sum_congr rfl fun j hj => ?_
  have hlt : j < (s.reg r.toNat).length := Finset.mem_range.mp hj
  have hw : (s.word r.toNat j).written = true := by
    rw [State.word, List.getD_eq_getElem _ _ hlt]
    exact List.all_eq_true.mp hd _ (List.getElem_mem hlt)
  have hv : (s.word r.toNat j).value s.env.ramDraws r.toNat (0 + j) = (s.word r.toNat j).val := by
    rw [OpWord.value, if_pos hw]
  exact congrArg (fun w : Word => w.toNat * 2 ^ (32 * j)) hv

/-- R23: a register written with v reads as v. -/
theorem State.writeReg_operand (s : State) (r : RegIdx) (v : Nat) (h : s.inv = true) (hr : s.hasReg r)
    (hv : v < 2 ^ s.params.nbits) : (s.writeReg r v).operand r = v := by
  obtain ⟨hp, hx, -, -⟩ := s.inv_iff.mp h
  obtain ⟨hl, -⟩ := s.fileWf_iff.mp hx
  rw [State.operand, s.writeReg_reg_eq r v (hl ▸ hr), wordsValue_wordsOf, s.params.words_mul_of_legal hp,
    Nat.mod_eq_of_lt hv]

theorem State.writeReg_word (s : State) (r : RegIdx) (v j : Nat) (hr : r.toNat < s.x.length) (hj : j < s.params.words) :
    (s.writeReg r v).word r.toNat j = { val := BitVec.ofNat 32 (v / 2 ^ (32 * j)), written := true } := by
  rw [State.word, s.writeReg_reg_eq r v hr, wordsOf_getD _ _ _ _ hj]

/-! ### The frame of a command (R24, R35) -/

/-- A command leaves every register outside its destinations alone. -/
theorem exec_reg (i : Instr) (s t : State) (h : exec i s = .next t) : SameRegsBut (destinations i) s t := by
  rw [exec_eq] at h
  cases h
  intro k hk
  rw [State.finish_reg_ne _ _ _ _ fun w hw => hk w.1 (resultOf_writes i s w hw)]
  obtain ⟨src, e⟩ := afterDraws_eq i s
  rw [e]
  rfl

/-- The end of a command whose result carries no signs leaves XSGN alone. -/
theorem State.finish_xsgn (s : State) (i : Instr) (r : CmdResult) (h : ∀ ws b g, r = .ok ws b g → g = none) :
    (s.finish i r).xsgn = s.xsgn := by
  rcases s.finish_cases i r with ⟨-, e⟩ | ⟨-, e⟩ <;> rw [e]
  · rfl
  · cases r with
    | err c => simp
    | ok ws b g =>
      rw [State.commit_ok_xsgn, h ws b g rfl]
      simp

/-- Only XGCD writes XSGN. -/
theorem exec_xsgn (i : Instr) (s t : State) (h : exec i s = .next t)
    (hi : ∀ rd rs1 rs2 rd2 rd3, i ≠ .xgcd rd rs1 rs2 rd2 rd3) : t.xsgn = s.xsgn := by
  rw [exec_eq] at h
  cases h
  rw [State.finish_xsgn _ _ _ (resultOf_signs i s hi)]
  obtain ⟨src, e⟩ := afterDraws_eq i s
  rw [e]
  rfl

/-- A command that ends with an error leaves XSGN alone (R87). -/
theorem exec_errcode_or_xsgn (i : Instr) (s t : State) (h : exec i s = .next t) :
    t.status.errcode = .ok ∨ t.xsgn = s.xsgn := by
  rw [exec_eq] at h
  cases h
  obtain ⟨src, e⟩ := afterDraws_eq i s
  have hx : (afterDraws s i).xsgn = s.xsgn := by rw [e]; rfl
  rcases (afterDraws s i).finish_cases i (resultOf s i) with ⟨-, e⟩ | ⟨-, e⟩ <;> rw [e]
  · exact .inr hx
  · cases resultOf s i with
    | err c => exact .inr (by simp [hx])
    | ok ws b g => exact .inl rfl

/-- Under an engine step XSGN changes only where a successful XGCD ends. -/
theorem engineStep_xsgn (s t : State) (h : engineStep s = .next t) (hne : t.xsgn ≠ s.xsgn) :
    t.status.busy = false ∧ t.status.errcode = .ok
      ∧ ∃ rd rs1 rs2 rd2 rd3, decode s.cmd = .ok (.xgcd rd rs1 rs2 rd2 rd3) := by
  rcases engineStep_cases s with ⟨i, hi, e⟩ | ⟨_, -, e⟩
  · have hexec : exec i s = .next t := e ▸ h
    obtain ⟨code, res, hst⟩ := exec_completes i s t hexec
    refine ⟨by simp [hst], (exec_errcode_or_xsgn i s t hexec).resolve_right hne, ?_⟩
    by_contra hno
    refine hne (exec_xsgn i s t hexec fun rd rs1 rs2 rd2 rd3 hx => hno ⟨rd, rs1, rs2, rd2, rd3, ?_⟩)
    rw [hi, hx]
  · cases e.symm.trans h
    exact absurd (s.commit_err_xsgn .illegal) hne

/-! ### What the host can change (R35, R39, R68, R74) -/

/-- While BUSY = 1 the operand file, CFG and CMD of s are those of t too. -/
def KeepsRunning (s t : State) : Prop :=
  s.status.busy = true → t.x = s.x ∧ t.cfg = s.cfg ∧ t.cmd = s.cmd

/-- A write that is dropped but for STATUS while BUSY = 1 (R68, R85) changes nothing of a running command. -/
theorem State.dropped_keeps (s u : State) (st : Status) (hu : u.xsgn = s.xsgn) :
    (if s.status.busy then s.setStatus st else u).xsgn = s.xsgn
      ∧ KeepsRunning s (if s.status.busy then s.setStatus st else u) := by
  split
  · exact ⟨rfl, fun _ => ⟨rfl, rfl, rfl⟩⟩
  · rename_i hidle
    exact ⟨hu, fun hb => absurd hb hidle⟩

/-- A bus write is a reset, or leaves XSGN alone and nothing of a running command is changed. -/
theorem State.busWrite_resets_or_keeps (s : State) (a : Offset) (v : Word) :
    s.busWrite a v = s.resetBlock ∨ ((s.busWrite a v).xsgn = s.xsgn ∧ KeepsRunning s (s.busWrite a v)) := by
  rcases s.busWrite_cases a v with h | h | h | h | h | ⟨i, j, h⟩ <;> rw [h]
  · exact .inr ⟨rfl, fun _ => ⟨rfl, rfl, rfl⟩⟩
  · unfold State.writeCtrl State.abortIf
    split
    · exact .inl rfl
    · split <;> exact .inr ⟨rfl, fun _ => ⟨rfl, rfl, rfl⟩⟩
  · exact .inr ⟨rfl, fun _ => ⟨rfl, rfl, rfl⟩⟩
  · exact .inr (s.dropped_keeps _ _ rfl)
  · exact .inr (s.dropped_keeps _ _ rfl)
  · exact .inr (s.dropped_keeps _ _ rfl)

/-- A host step is a reset, or leaves XSGN alone and nothing of a running command is changed. -/
theorem hostStep_resets_or_keeps (s t : State) (h : hostStep s = .next t) :
    (∃ e, t = State.resetWith s.params e) ∨ (t.xsgn = s.xsgn ∧ KeepsRunning s t) := by
  rcases hostStep_cases s t h with ⟨e, rfl⟩ | ⟨a, v, rest, -, rfl⟩ | ⟨rest, -, rfl⟩
  · exact .inr ⟨rfl, fun _ => ⟨rfl, rfl, rfl⟩⟩
  · rcases State.busWrite_resets_or_keeps (s.setEnv (s.env.setHost rest)) a v with hr | hk
    · exact .inl ⟨_, hr⟩
    · exact .inr hk
  · exact .inl ⟨_, rfl⟩

/-! ### RES (R37) -/

/-- Where a command ends with OK its `execute` answered OK, and RES is the answer's flag. -/
theorem exec_ok (i : Instr) (s t : State) (h : exec i s = .next t) (hok : t.status.errcode = .ok) :
    (resultOf s i).code = .ok ∧ t.status.res = (resultOf s i).flag := by
  have hst := exec_status i s t h
  split at hst
  · rw [hst] at hok ⊢
    exact ⟨hok, rfl⟩
  · simp [hst] at hok

/-- A command that ends with an error leaves RES 0. -/
theorem exec_res_of_err (i : Instr) (s t : State) (h : exec i s = .next t) (herr : t.status.errcode ≠ .ok) :
    t.status.res = false := by
  have hst := exec_status i s t h
  split at hst
  · rw [hst] at herr ⊢
    exact (resultOf s i).code_flag.resolve_left herr
  · rw [hst]
    rfl

/-- Only the three primality commands answer a Boolean result that can be 1. -/
theorem resultOf_flag (i : Instr) (s : State) (h : (resultOf s i).flag = true) :
    (∃ n, i = .tdiv n) ∨ (∃ n a, i = .mrround n a) ∨ ∃ n, i = .primetest n := by
  cases i with
  | tdiv n => exact .inl ⟨n, rfl⟩
  | mrround n a => exact .inr (.inl ⟨n, a, rfl⟩)
  | primetest n => exact .inr (.inr ⟨n, rfl⟩)
  | nop => cases h
  | xgcd rd rs1 rs2 rd2 rd3 => cases h
  | modmul rd rs1 rs2 rs3 =>
    simp only [resultOf, modmulResult] at h
    split at h <;> cases h
  | modexp rd rs1 rs2 rs3 =>
    simp only [resultOf, modexpResult] at h
    split at h <;> cases h
  | modinv rd rs1 rs2 =>
    simp only [resultOf, modinvResult] at h
    split at h
    · cases h
    · split at h <;> cases h

theorem mrroundResult_flag (n a : Nat) (h : (mrroundResult n a).code = .ok) :
    (mrroundResult n a).flag = millerRabin n a := by
  revert h
  unfold mrroundResult
  split
  · simp [CmdResult.code]
  · exact fun _ => rfl

theorem primetestResult_flag (d : Option Bool) (h : (primetestResult d).code = .ok) :
    d = some (primetestResult d).flag := by
  cases d with
  | none => cases h
  | some b => rfl

/-! ### What a command reads of STATUS -/

theorem State.writeRegs_setStatus (ws : List (RegIdx × Nat)) (s : State) (t : Status) :
    (s.setStatus t).writeRegs ws = (s.writeRegs ws).setStatus t := by
  induction ws generalizing s with
  | nil => rfl
  | cons w ws ih => exact ih (s.writeReg w.1 w.2)

theorem State.commitSigns_setStatus (g : Option Xsgn) (s : State) (t : Status) :
    (s.setStatus t).commitSigns g = (s.commitSigns g).setStatus t := by
  cases g <;> rfl

/-- A commit overwrites RES and reads it nowhere. -/
theorem State.commit_setRes (s : State) (b : Bool) (r : CmdResult) :
    (s.setStatus { s.status with res := b }).commit r = s.commit r := by
  cases r with
  | err c => rfl
  | ok ws res g =>
    rw [State.commit, State.writeRegs_setStatus, State.commitSigns_setStatus]
    rfl

theorem State.noteReads_setStatus (s : State) (t : Status) (rs : List RegIdx) :
    (s.setStatus t).noteReads rs = (s.noteReads rs).setStatus t := by
  have hd : (s.setStatus t).operandDefined = s.operandDefined := rfl
  unfold State.noteReads
  rw [hd]
  split <;> rfl

theorem State.finish_setRes (s : State) (b : Bool) (i : Instr) (r : CmdResult) :
    (s.setStatus { s.status with res := b }).finish i r = s.finish i r := by
  have hl : (s.setStatus { s.status with res := b }).legal i = s.legal i := rfl
  have hn := (s.noteReads (sources i)).commit_setRes b r
  rw [State.noteReads_status] at hn
  rw [State.finish, hl, State.noteReads_setStatus, hn, State.commit_setRes, State.finish]

theorem resultOf_setStatus (s : State) (t : Status) (i : Instr) : resultOf (s.setStatus t) i = resultOf s i := by
  cases i <;> rfl

theorem afterDraws_setStatus (s : State) (t : Status) (i : Instr) :
    afterDraws (s.setStatus t) i = (afterDraws s i).setStatus t := by
  cases i with
  | primetest rs1 =>
    have hl : (s.setStatus t).legal (.primetest rs1) = s.legal (.primetest rs1) := rfl
    simp only [afterDraws, State.useEntropy, hl]
    split <;> rfl
  | _ => rfl

/-- No command reads RES. -/
theorem exec_setRes (i : Instr) (s : State) (b : Bool) :
    exec i (s.setStatus { s.status with res := b }) = exec i s := by
  have hst : (afterDraws s i).status = s.status := by
    obtain ⟨src, e⟩ := afterDraws_eq i s
    rw [e]
    rfl
  have hf := (afterDraws s i).finish_setRes b i (resultOf s i)
  rw [hst] at hf
  rw [exec_eq, exec_eq, resultOf_setStatus, afterDraws_setStatus, hf]

end Sys2Proof.Machine
end

section
/-!
The statements of the family 10_state: what the registers hold, read and ignore, and what a command, the host and a reset
change of them.
-/
namespace Sys2Proof.Machine

/-- Settles O19: a reserved offset names no register, a reserved field is zero in the word read, and each write looks at
its own bits alone. -/
theorem reservedSpaceReadsZero : Obligations.ReservedSpaceReadsZero := by
  refine ⟨fun s a v _ hal hres => ?_, fun s v => ⟨rfl, rfl, rfl, rfl⟩, fun s => ?_, fun s v => ?_⟩
  · have ht : target s.params a = .reserved := target_of_reservedOffset s.params a hres
    refine ⟨s.busRead_reserved a ht, s.busWrite_reserved a v ht, fun rest => ?_⟩
    obtain ⟨hw, hr⟩ := hostOp_aligned s rest a v hal
    have ht' : target (s.setEnv (s.env.setHost rest)).params a = .reserved := ht
    rw [hw, hr, State.busWrite_reserved _ a v ht', State.answerRead_reserved _ a ht']
    exact ⟨rfl, rfl⟩
  · obtain ⟨-, hlow, hhigh⟩ := s.status.toWord_fields
    obtain ⟨-, -, hcfg⟩ := s.cfg.toWord_fields
    obtain ⟨-, -, hxsgn⟩ := s.xsgn.toWord_fields
    refine ⟨and_fieldMask_eq_zero _ 24 8 (paramWord_reserved s.params),
      and_fieldMask_eq_zero _ 1 31 (ctrlWord_reserved s.ie), ?_, and_fieldMask_eq_zero _ 9 23 hcfg,
      and_fieldMask_eq_zero _ 2 30 hxsgn⟩
    have hmask : (0xFFFFF0C0 : Word) =
        BitVec.ofNat 32 ((2 ^ 2 - 1) * 2 ^ 6) ||| BitVec.ofNat 32 ((2 ^ 20 - 1) * 2 ^ 12) := by
      decide
    rw [s.busRead_status, hmask, BitVec.and_or_distrib_left, and_fieldMask_eq_zero _ 6 2 hlow,
      and_fieldMask_eq_zero _ 12 20 hhigh, BitVec.or_self]
  · have hfield : (v &&& 0x000001FF).extractLsb' 0 8 = v.extractLsb' 0 8 := by
      rw [BitVec.extractLsb'_and, show (0x000001FF : Word).extractLsb' 0 8 = BitVec.allOnes 8 by decide,
        BitVec.and_allOnes]
    refine ⟨s.writeCtrl_congr _ _ ?_ ?_ ?_, s.writeStatus_congr _ _ ?_ ?_ ?_, s.writeCfg_congr _ _ hfield.symm ?_⟩ <;>
      simp

/-- Settles O21: the value of a register as a sum, by induction on its words, and word j of what a write puts there. -/
theorem registerIsSumOfWords : Obligations.RegisterIsSumOfWords := by
  refine ⟨fun s r h hr hd => ?_, fun s r v j h hr hv hj => ⟨?_, s.writeReg_operand r v h hr hv⟩⟩
  · obtain ⟨-, hx, -, -⟩ := s.inv_iff.mp h
    rw [s.operand_eq_sum r hd, s.length_reg hx _ hr]
    rfl
  · obtain ⟨-, hx, -, -⟩ := s.inv_iff.mp h
    obtain ⟨hl, -⟩ := s.fileWf_iff.mp hx
    exact s.writeReg_word r v j (hl ▸ hr) hj

/-- Settles O24: a host step that is no reset keeps what a running command works on, and a reset ends it. -/
theorem hostCannotDisturbRunningCommand : Obligations.HostCannotDisturbRunningCommand := by
  intro s t hb h htb
  rcases hostStep_resets_or_keeps s t h with ⟨e, rfl⟩ | ⟨hsgn, hkeep⟩
  · cases htb
  · obtain ⟨hx, hcfg, hcmd⟩ := hkeep hb
    exact ⟨hx, hcfg, hcmd, hsgn, hostStep_params s t h⟩

/-- Settles O29: a result writes destinations only, and only XGCD's carries signs. -/
theorem commandFrame : Obligations.CommandFrame := fun i s t h =>
  ⟨exec_reg i s t h, exec_xsgn i s t h, rfl, fun _ _ _ _ => ⟨rfl, rfl⟩, fun _ _ _ _ _ => rfl, fun _ _ _ => rfl,
    fun _ => ⟨rfl, rfl⟩, fun _ _ => rfl⟩

/-- Settles O31: RES after a command is the flag of its result, which no command computes from RES. -/
theorem resultFlag : Obligations.ResultFlag := by
  refine ⟨fun s w => rfl, fun i s t h hres => ?_, fun s t h herr => ?_, fun i s b => exec_setRes i s b,
    fun s t hok => ⟨fun n h => ?_, fun n a h => ?_, fun n h => ?_⟩⟩
  · have hok : t.status.errcode = .ok := by
      by_contra herr
      simp [exec_res_of_err i s t h herr] at hres
    obtain ⟨-, hflag⟩ := exec_ok i s t h hok
    exact ⟨hok, resultOf_flag i s (hflag ▸ hres)⟩
  · rcases engineStep_cases s with ⟨i, -, e⟩ | ⟨_, -, e⟩
    · exact exec_res_of_err i s t (e ▸ h) herr
    · cases e.symm.trans h
      rfl
  · obtain ⟨-, hflag⟩ := exec_ok _ s t h hok
    exact hflag
  · obtain ⟨hcode, hflag⟩ := exec_ok _ s t h hok
    rw [hflag]
    exact mrroundResult_flag _ _ hcode
  · obtain ⟨hcode, hflag⟩ := exec_ok _ s t h hok
    rw [hflag]
    exact primetestResult_flag _ hcode

/-- Settles O32: the engine changes XSGN by XGCD alone, the host by a reset alone. -/
theorem xsgnWrittenOnlyByXgcd : Obligations.XsgnWrittenOnlyByXgcd := by
  refine ⟨fun s t h hne => ?_, fun s => s.xsgn.toWord_fields⟩
  rcases step_cases s with ⟨hb, e⟩ | ⟨k, e⟩
  · exact .inl ⟨hb, engineStep_xsgn s t (e ▸ h) hne⟩
  · rcases hostStep_resets_or_keeps (s.setEnv (s.env.setHold k)) t (e ▸ h) with ⟨env, rfl⟩ | ⟨hsgn, -⟩
    · exact .inr ⟨rfl, env, rfl⟩
    · exact absurd hsgn hne

/-- Settles O12: the write clears bit by bit, and the invariant's form of STATUS excludes DONE beside BUSY. -/
theorem statusWriteClearsOnes : Obligations.StatusWriteClearsOnes := by
  refine ⟨fun s v => ?_, fun s h hb => s.status.done_of_busy (s.status_wf_of_inv h) hb⟩
  have hclear : ∀ old w1c : Bool, (old && !w1c) = if w1c then false else old := by decide
  rw [s.busWrite_status v, State.writeStatus, Status.writeOneToClear, hclear, hclear, hclear]
  rfl

/-- Settles O13: bit by bit from the sum that the read word is. -/
theorem statusReadLayout : Obligations.StatusReadLayout := by
  intro s
  obtain ⟨hbusy, hdone, herr, hres, hovr, haccerr⟩ := s.status.toWord_flags
  obtain ⟨hcode, hlow, hhigh⟩ := s.status.toWord_fields
  rw [s.busRead_status]
  exact ⟨hbusy, hdone, herr ▸ s.status.err_iff, hres, hovr, haccerr, hlow, hcode, hhigh, rfl⟩

/-- Settles O16: the reads by evaluation of R41's table; every register is a replicate of undefined words. -/
theorem resetStateValues : Obligations.ResetStateValues := by
  refine ⟨rfl, by decide, by decide, rfl, by decide, by decide, rfl, by decide, rfl, rfl, fun r hr => ?_⟩
  obtain rfl := List.eq_of_mem_replicate hr
  refine ⟨List.length_replicate, fun w hw => ?_⟩
  rw [List.eq_of_mem_replicate hw]
  rfl

/-- Settles O17: the fields of the read, and the two branches of the write. -/
theorem cfgWrite : Obligations.CfgWrite := by
  refine ⟨by decide, fun s => s.cfg.toWord_fields, fun s v hb => ?_, fun s v hb => ?_⟩ <;>
    rw [s.busWrite_cfg v, State.writeCfg, hb] <;> rfl

/-- Settles O59: the state after reset is a reset of itself, with legal parameters. -/
theorem resetHasInv : Obligations.ResetHasInv := State.reset.resetBlock_inv (by decide)

end Sys2Proof.Machine
end

section
/-!
Where the register map puts the operand window (R63, R64), which accesses are legal (R61), and what the host's accesses do
while idle and while a command runs (R67, R68, R70).
-/
namespace Sys2Proof

theorem Params.words_pos_of_legal (p : Params) (h : p.legal = true) : 0 < p.words := by
  simp only [Params.legal, Bool.and_eq_true, decide_eq_true_eq] at h
  simp only [Params.words]
  omega

/-- The operand file is at most 4096 bytes, so that it fits the window (R7). -/
theorem Params.file_words_le (p : Params) (h : p.legal = true) : p.nreg * p.words ≤ 1024 := by
  have hbits : p.nreg * p.nbits = 32 * (p.nreg * p.words) := by rw [← p.words_mul_of_legal h, Nat.mul_left_comm]
  simp only [Params.legal, Bool.and_eq_true, decide_eq_true_eq] at h
  omega

/-- A register takes four bytes a word. -/
theorem Params.regBytes_of_legal (p : Params) (h : p.legal = true) : p.nbits / 8 = 4 * p.words := by
  have := p.words_mul_of_legal h
  omega

end Sys2Proof

namespace Sys2Proof.Machine

/-! ### The operand window (R63) -/

/-- XADDR counts words from the base of the window, register after register. -/
theorem xaddr_eq_words (p : Params) (h : p.legal = true) (i j : Nat) :
    xaddr p i j = 0x1000 + 4 * (i * p.words + j) := by
  rw [xaddr, p.regBytes_of_legal h, Nat.mul_left_comm, Nat.mul_add, Nat.add_assoc]

/-- The end of the window is inside the register space (R60). -/
theorem windowEnd_le (p : Params) (h : p.legal = true) : xaddr p p.nreg 0 ≤ 0x2000 := by
  have := p.file_words_le h
  rw [xaddr_eq_words p h]
  omega

theorem windowEnd_eq (p : Params) (h : p.legal = true) : xaddr p p.nreg 0 = 0x1000 + p.nreg * p.nbits / 8 := by
  rw [xaddr_eq_words p h, ← p.words_mul_of_legal h, Nat.mul_left_comm]
  omega

/-- A word of a register that exists lies in the window. -/
theorem xaddr_mem_window (p : Params) (i j : Nat) (h : p.legal = true) (hi : i < p.nreg) (hj : j < p.words) :
    0x1000 ≤ xaddr p i j ∧ xaddr p i j < xaddr p p.nreg 0 := by
  have hnext : (i + 1) * p.words ≤ p.nreg * p.words := Nat.mul_le_mul_right _ hi
  rw [Nat.succ_mul] at hnext
  rw [xaddr_eq_words p h, xaddr_eq_words p h]
  omega

theorem toNat_xaddr (p : Params) (i j : Nat) (h : p.legal = true) (hi : i < p.nreg) (hj : j < p.words) :
    (BitVec.ofNat 13 (xaddr p i j)).toNat = xaddr p i j := by
  have hwin := xaddr_mem_window p i j h hi hj
  have hend := windowEnd_le p h
  rw [BitVec.toNat_ofNat, Nat.mod_eq_of_lt (by omega)]

/-- An offset in the window is no control register. -/
theorem target_of_window (p : Params) (a : Offset) (hlo : 0x1000 ≤ a.toNat) (hhi : a.toNat < xaddr p p.nreg 0) :
    target p a = .operand ((a.toNat - 0x1000) / (p.nbits / 8)) ((a.toNat - 0x1000) % (p.nbits / 8) / 4) := by
  have hreg : ∀ b : Offset, b.toNat < 0x1000 → a ≠ b := by
    rintro b hb rfl
    omega
  have hwin : 0x1000 ≤ a.toNat ∧ a.toNat < xaddr p p.nreg 0 := ⟨hlo, hhi⟩
  simp (disch := decide) only [target, hreg, if_false, hwin, and_self, if_true]

/-- R63: the register map gives word j of X[i] at XADDR(i, j). -/
theorem target_xaddr (p : Params) (i j : Nat) (h : p.legal = true) (hi : i < p.nreg) (hj : j < p.words) :
    target p (BitVec.ofNat 13 (xaddr p i j)) = .operand i j := by
  obtain ⟨hlo, hhi⟩ := xaddr_mem_window p i j h hi hj
  have hoff : xaddr p i j - 0x1000 = 4 * j + 4 * p.words * i := by
    rw [xaddr_eq_words p h, Nat.mul_assoc, Nat.mul_comm p.words]
    omega
  have hlt : 4 * j < 4 * p.words := by omega
  have ha := toNat_xaddr p i j h hi hj
  rw [target_of_window p _ (hlo.trans_eq ha.symm) (ha.trans_lt hhi), ha, p.regBytes_of_legal h, hoff,
    Nat.add_mul_div_left _ _ (by omega), Nat.div_eq_of_lt hlt, Nat.add_mul_mod_self_left, Nat.mod_eq_of_lt hlt, Nat.zero_add,
    Nat.mul_div_cancel_left _ (by decide)]

theorem target_eq_ctrl (p : Params) (a : Offset) (h : target p a = .ctrl) : a = 0x010 := by
  revert h
  unfold target
  split_ifs <;> simp [*]

/-! ### Accesses to operand words (R67, R68) -/

theorem State.busWrite_xaddr (s : State) (i j : Nat) (v : Word) (h : s.params.legal = true) (hi : i < s.params.nreg)
    (hj : j < s.params.words) : s.busWrite (BitVec.ofNat 13 (xaddr s.params i j)) v = s.writeOperandWord i j v := by
  rw [State.busWrite, target_xaddr s.params i j h hi hj]
  rfl

theorem State.busRead_xaddr (s : State) (i j : Nat) (h : s.params.legal = true) (hi : i < s.params.nreg)
    (hj : j < s.params.words) : s.busRead (BitVec.ofNat 13 (xaddr s.params i j)) = s.readOperandWord i j := by
  rw [State.busRead, target_xaddr s.params i j h hi hj]
  rfl

theorem State.writeOperandWord_idle (s : State) (i j : Nat) (v : Word) (hb : s.status.busy = false) :
    s.writeOperandWord i j v = s.writeWord i j v := by
  simp [State.writeOperandWord, hb]

theorem State.writeOperandWord_busy (s : State) (i j : Nat) (v : Word) (hb : s.status.busy = true) :
    s.writeOperandWord i j v = s.setStatus s.status.accessError := if_pos hb

theorem State.readOperandWord_idle (s : State) (i j : Nat) (hb : s.status.busy = false) :
    s.readOperandWord i j = (s.word i j).value s.env.ramDraws i j := by
  simp [State.readOperandWord, hb]

theorem State.readOperandWord_busy (s : State) (i j : Nat) (hb : s.status.busy = true) :
    s.readOperandWord i j = Config.ramWord s.env.ramDraws i j := if_pos hb

/-- A word write, while idle, to a word that exists (R67). -/
theorem State.writeWord_word_of_inv (s : State) (i j k l : Nat) (v : Word) (h : s.inv = true) (hi : i < s.params.nreg)
    (hj : j < s.params.words) :
    (s.writeWord i j v).word k l = if k = i ∧ l = j then { val := v, written := true } else s.word k l := by
  obtain ⟨-, hx, -, -⟩ := s.inv_iff.mp h
  obtain ⟨hl, -⟩ := s.fileWf_iff.mp hx
  exact s.writeWord_word i j k l v (hl ▸ hi) (s.length_reg hx i hi ▸ hj)

/-! ### What a write while a command runs leaves alone (R68) -/

/-- A CTRL write without SRST touches neither the operand file nor XSGN. -/
theorem State.writeCtrl_keeps_operands (s : State) (v : Word) (hv : v.getLsbD 2 = false) :
    (s.writeCtrl v).x = s.x ∧ (s.writeCtrl v).xsgn = s.xsgn := by
  unfold State.writeCtrl State.abortIf
  rw [hv, if_neg Bool.false_ne_true]
  split <;> exact ⟨rfl, rfl⟩

/-- A write dropped but for STATUS while BUSY = 1 leaves the operand file and XSGN alone. -/
theorem State.dropped_keeps_operands (s u : State) (st : Status) (hb : s.status.busy = true) :
    (if s.status.busy then s.setStatus st else u).x = s.x
      ∧ (if s.status.busy then s.setStatus st else u).xsgn = s.xsgn := by
  rw [if_pos hb]
  exact ⟨rfl, rfl⟩

theorem State.busWrite_keeps_operands (s : State) (a : Offset) (v : Word) (hb : s.status.busy = true)
    (ha : a ≠ 0x010 ∨ v.getLsbD 2 = false) : (s.busWrite a v).x = s.x ∧ (s.busWrite a v).xsgn = s.xsgn := by
  unfold State.busWrite
  cases ht : target s.params a with
  | ctrl => exact s.writeCtrl_keeps_operands v (ha.resolve_left (not_not_intro (target_eq_ctrl _ a ht)))
  | cfg => exact s.dropped_keeps_operands _ _ hb
  | cmd => exact s.dropped_keeps_operands _ _ hb
  | operand i j => exact s.dropped_keeps_operands _ _ hb
  | status | id | param | param2 | xsgn | reserved => exact ⟨rfl, rfl⟩

/-! ### Legal accesses (R61) and their order (R70) -/

theorem offset_aligned_iff (a : Offset) : a.extractLsb' 0 2 = 0 ↔ a.toNat % 4 = 0 := by
  simp [← BitVec.toNat_inj]

theorem legalAccess_iff (a : Offset) (z : AccessSize) : legalAccess a z = true ↔ z = .four ∧ a.toNat % 4 = 0 := by
  simp [legalAccess, ← offset_aligned_iff]

theorem step_eq_hostStep_of_idle (s : State) (hb : s.status.busy = false) : step s = hostStep s := by
  rcases s.schedule_cases with ⟨-, e⟩ | ⟨h, -⟩ | ⟨h, -⟩
  · rw [step, e]
    rfl
  · simp [hb] at h
  · simp [hb] at h

/-- A turn of the host uses up one of the latency and changes nothing else. -/
theorem State.takeTurn_host (s u : State) (h : s.takeTurn = (.host, u)) :
    ∃ k, s.env.hold = k + 1 ∧ u = s.setEnv (s.env.setHold k) := by
  rcases s.takeTurn_cases with ⟨-, e⟩ | ⟨k, hk, e⟩ <;> cases e.symm.trans h
  exact ⟨k, hk, rfl⟩

/-- Where the host moves, it takes its oldest operation: u is s with the turn taken. -/
theorem step_eq_hostOp (s u : State) (op : HostOp) (rest : List HostOp) (hh : s.env.host = op :: rest)
    (hu : s.status.busy = false ∧ u = s ∨ s.status.busy = true ∧ s.takeTurn = (.host, u)) :
    step s = hostOp u rest op := by
  rcases hu with ⟨hb, rfl⟩ | ⟨hb, ht⟩
  · rw [step_eq_hostStep_of_idle u hb, hostStep, hh]
  · obtain ⟨k, hk, rfl⟩ := s.takeTurn_host u ht
    rw [step_eq_hostStep s k hb (by simp [hh]) hk, hostStep, State.setEnv_env, Env.setHold_host, hh]

end Sys2Proof.Machine
end

section
/-!
The statements of the family 20_memory: the operand window, the host's accesses while idle and while a command runs, bus
errors, and the order of accesses.
-/
namespace Sys2Proof.Machine

/-- Settles O20: the window counted in words, and its end inside the register space. -/
theorem operandWindow : Obligations.OperandWindow := by
  refine ⟨fun p i j => rfl, fun p i j h hi hj => ⟨?_, target_xaddr p i j h hi hj⟩, fun p a h ha => ?_, fun i j => ?_,
    by decide⟩
  · exact (xaddr_mem_window p i j h hi hj).2.trans_le (windowEnd_le p h)
  · exact target_of_reservedOffset p a (.inr (.inr ((windowEnd_eq p h).trans_le ha)))
  · rw [xaddr, show Params.reference.nbits / 8 = 0x100 from rfl, Nat.mul_comm i]

/-- Settles O22: the write sets one word of the file, and the read gives the word stored there. -/
theorem idleOperandAccess : Obligations.IdleOperandAccess := by
  refine ⟨fun s i j v h hb hi hj => ?_, fun s i j h hb hi hj => ?_⟩
  · have hp := s.params_legal_of_inv h
    have hword := fun k l => s.writeWord_word_of_inv i j k l v h hi hj
    have hown : (s.writeWord i j v).word i j = { val := v, written := true } := by rw [hword, if_pos ⟨rfl, rfl⟩]
    refine ⟨s.writeWord i j v, ?_, hown, fun k l hne => ?_, rfl, ?_⟩
    · rw [s.busWrite_xaddr i j v hp hi hj, s.writeOperandWord_idle i j v hb]
    · rw [hword, if_neg (by tauto)]
    · have hread := (s.writeWord i j v).busRead_xaddr i j hp hi hj
      rw [State.readOperandWord_idle (s.writeWord i j v) i j hb, hown] at hread
      exact hread
  · rw [s.busRead_xaddr i j (s.params_legal_of_inv h) hi hj, s.readOperandWord_idle i j hb]
    rfl

/-- Settles O23: each access by its target; only a CTRL write with SRST resets. -/
theorem busyAccesses : Obligations.BusyAccesses := by
  intro s h hb
  have hp := s.params_legal_of_inv h
  refine ⟨fun i j v hi hj => ⟨?_, ?_⟩, fun v => ⟨if_pos hb, if_pos hb⟩, ⟨rfl, rfl, rfl, rfl, rfl, rfl, rfl, rfl⟩,
    fun a v ha => s.busWrite_keeps_operands a v hb ha, fun v => ⟨rfl, rfl⟩, fun a v rest ha => ?_⟩
  · rw [s.busWrite_xaddr i j v hp hi hj, s.writeOperandWord_busy i j v hb]
    rfl
  · rw [s.busRead_xaddr i j hp hi hj, s.readOperandWord_busy i j hb]
  · obtain ⟨hw, hr⟩ := hostOp_aligned s rest a v ((offset_aligned_iff a).mpr ha)
    exact ⟨⟨_, hw⟩, ⟨_, hr⟩⟩

/-- Settles O25: a read answers the value read and counts a draw at most. -/
theorem readsHaveNoSideEffect : Obligations.ReadsHaveNoSideEffect := State.answerRead_eq

/-- Settles O26: an access is checked for R61 alone, and no other operation is checked. -/
theorem busErrorExactlyOnIllegalAccess : Obligations.BusErrorExactlyOnIllegalAccess := by
  refine ⟨fun s a z v rest hbad => ?_, fun s op rest hread hwrite => ?_⟩
  · have hillegal : ¬ legalAccess a z = true := by rw [legalAccess_iff]; tauto
    exact ⟨if_neg hillegal, if_neg hillegal⟩
  · cases op with
    | read a z => exact ⟨_, if_pos ((legalAccess_iff a z).mpr (hread a z rfl))⟩
    | write a z v => exact ⟨_, if_pos ((legalAccess_iff a z).mpr (hwrite a z v rfl))⟩
    | wait | waitIrq | hardReset => exact ⟨_, rfl⟩

/-- Settles O27: where the host moves its oldest operation is taken, and an aligned 32-bit one has its effect. -/
theorem hostAccessesInOrder : Obligations.HostAccessesInOrder := by
  intro s u a v rest ha hu
  obtain ⟨hw, hr⟩ := hostOp_aligned u rest a v ((offset_aligned_iff a).mpr ha)
  exact ⟨fun hh => (step_eq_hostOp s u _ rest hh hu).trans hw, fun hh => (step_eq_hostOp s u _ rest hh hu).trans hr⟩

end Sys2Proof.Machine
end

section
/-!
The command word as seven fields (R81): the table's masks select the opcode and the unused fields (R82), so that a word is a
command exactly where its opcode is legal and its unused fields are 0, and the encoder and the decoder are each other's
inverse; the four checks of R88 on a word's fields; and what the engine does with an illegal word, an error and an issue.
-/
namespace Sys2Proof

/-! ### Words by their fields (R81) -/

/-- Two words with the same seven fields are the same word. -/
theorem word_eq_iff (w v : Word) :
    w = v ↔ fieldOpc w = fieldOpc v ∧ fieldRd w = fieldRd v ∧ fieldRs1 w = fieldRs1 v ∧ fieldRs2 w = fieldRs2 v
      ∧ fieldRs3 w = fieldRs3 v ∧ fieldRd2 w = fieldRd2 v ∧ fieldRd3 w = fieldRd3 v := by
  refine ⟨fun h => by simp [h], fun ⟨ho, hd, h1, h2, h3, hd2, hd3⟩ => ?_⟩
  rw [← packWord_fields w, ho, hd, h1, h2, h3, hd2, hd3, packWord_fields]

/-- A word under a mask, field by field. -/
theorem and_eq_iff_fields (w m p : Word) :
    w &&& m = p ↔ fieldOpc w &&& fieldOpc m = fieldOpc p ∧ fieldRd w &&& fieldRd m = fieldRd p
      ∧ fieldRs1 w &&& fieldRs1 m = fieldRs1 p ∧ fieldRs2 w &&& fieldRs2 m = fieldRs2 p
      ∧ fieldRs3 w &&& fieldRs3 m = fieldRs3 p ∧ fieldRd2 w &&& fieldRd2 m = fieldRd2 p
      ∧ fieldRd3 w &&& fieldRd3 m = fieldRd3 p := by
  rw [word_eq_iff]
  simp only [fieldOpc, fieldRd, fieldRs1, fieldRs2, fieldRs3, fieldRd2, fieldRd3, BitVec.extractLsb'_and]

/-! ### The opcode table (R82) -/

theorem Opcode.number_injective : Function.Injective Opcode.number := fun c d h =>
  Option.some_injective _ ((opcodeOf_number c).symm.trans (h ▸ opcodeOf_number d))

/-- The opcodes that are not reserved are those of the table (R90). -/
theorem exists_number_eq_iff (n : BitVec 8) : (∃ c : Opcode, c.number = n) ↔ n.toNat ≤ 0x07 := by
  constructor
  · rintro ⟨c, rfl⟩
    cases c <;> decide
  · intro h
    have hfin : ∀ k : Fin 8, ∃ c ∈ Opcode.all, c.number = BitVec.ofNat 8 k := by decide
    obtain ⟨c, -, hc⟩ := hfin ⟨n.toNat, by omega⟩
    exact ⟨c, by simpa using hc⟩

theorem Opcode.matchesWord_iff_and (c : Opcode) (w : Word) : c.matchesWord w = true ↔ w &&& c.mask = c.pattern :=
  beq_iff_eq

@[simp] theorem Opcode.fieldOpc_mask (c : Opcode) : fieldOpc c.mask = BitVec.allOnes 8 := by cases c <;> decide

@[simp] theorem Opcode.fieldOpc_pattern (c : Opcode) : fieldOpc c.pattern = c.number := by cases c <;> decide

/-- Every mask covers OPC, so a word matches the row of its own opcode alone. -/
theorem Opcode.fieldOpc_of_matchesWord (c : Opcode) (w : Word) (h : c.matchesWord w = true) : fieldOpc w = c.number := by
  rw [c.matchesWord_iff_and, and_eq_iff_fields] at h
  obtain ⟨ho, -⟩ := h
  rwa [c.fieldOpc_mask, c.fieldOpc_pattern, BitVec.and_allOnes] at ho

/-- A word with a row's opcode matches the row iff its unused fields are 0. -/
theorem Opcode.matchesWord_iff_unusedFields (c : Opcode) (w : Word) (ho : fieldOpc w = c.number) :
    c.matchesWord w = true ↔ ∀ f ∈ Machine.unusedFields w, f = 0 := by
  have hones : ∀ f : RegIdx, f &&& 0xF#4 = f := fun f => BitVec.and_allOnes
  rw [c.matchesWord_iff_and, and_eq_iff_fields, c.fieldOpc_mask, c.fieldOpc_pattern]
  cases c <;>
    simp [Machine.unusedFields, ho, Opcode.number, Opcode.mask, Opcode.pattern, fieldRd, fieldRs1, fieldRs2, fieldRs3,
      fieldRd2, fieldRd3, hones]

theorem opcodeOfInstr_build (c : Opcode) (w : Word) : opcodeOfInstr (c.build w) = c := by cases c <;> rfl

/-- A word decodes to a command iff it matches the command's row and the command has the word's fields. -/
theorem decode_eq_ok_iff_matches (w : Word) (i : Instr) :
    decode w = .ok i ↔ (opcodeOfInstr i).matchesWord w = true ∧ (opcodeOfInstr i).build w = i := by
  rw [decode_eq_ok_iff]
  constructor
  · rintro ⟨c, -, hm, rfl⟩
    rw [opcodeOfInstr_build]
    exact ⟨hm, rfl⟩
  · rintro ⟨hm, hb⟩
    exact ⟨_, (Opcode.fieldOpc_of_matchesWord _ w hm).symm, hm, hb⟩

theorem decode_eq_ok_build_iff (c : Opcode) (w : Word) : decode w = .ok (c.build w) ↔ c.matchesWord w = true := by
  rw [decode_eq_ok_iff_matches, opcodeOfInstr_build]
  exact and_iff_left rfl

/-- A word is a command iff its opcode is not reserved and its unused fields are 0 (R88 checks 1 and 2). -/
theorem exists_decode_eq_ok_iff (w : Word) :
    (∃ i, decode w = .ok i) ↔ (fieldOpc w).toNat ≤ 0x07 ∧ ∀ f ∈ Machine.unusedFields w, f = 0 := by
  rw [← exists_number_eq_iff]
  constructor
  · rintro ⟨i, hi⟩
    obtain ⟨hm, -⟩ := (decode_eq_ok_iff_matches w i).mp hi
    have ho := Opcode.fieldOpc_of_matchesWord _ w hm
    exact ⟨⟨_, ho.symm⟩, (Opcode.matchesWord_iff_unusedFields _ w ho).mp hm⟩
  · rintro ⟨⟨c, ho⟩, hu⟩
    exact ⟨c.build w, (decode_eq_ok_build_iff c w).mpr ((c.matchesWord_iff_unusedFields w ho.symm).mpr hu)⟩

/-! ### The encoder and the decoder -/

theorem fieldOpc_encode (i : Instr) : fieldOpc (encode i) = (opcodeOfInstr i).number := by
  cases i <;> exact fieldOpc_packWord _ _ _ _ _ _ _

theorem unusedFields_encode (i : Instr) : ∀ f ∈ Machine.unusedFields (encode i), f = 0 := by
  cases i <;> simp [Machine.unusedFields, encode]

theorem build_encode (i : Instr) : (opcodeOfInstr i).build (encode i) = i := by
  cases i <;> simp [opcodeOfInstr, Opcode.build, encode]

theorem decode_encode (i : Instr) : decode (encode i) = .ok i :=
  (decode_eq_ok_iff_matches _ i).mpr
    ⟨(Opcode.matchesWord_iff_unusedFields _ _ (fieldOpc_encode i)).mpr (unusedFields_encode i), build_encode i⟩

/-- The encoder gives a word back whose fields it has been given, where the fields it sets to 0 are 0. -/
theorem encode_build (c : Opcode) (w : Word) (ho : fieldOpc w = c.number)
    (hu : ∀ f ∈ Machine.unusedFields w, f = 0) : encode (c.build w) = w := by
  rw [word_eq_iff, fieldOpc_encode, opcodeOfInstr_build, ho]
  revert hu
  cases c <;> simp +contextual [Machine.unusedFields, ho, Opcode.number, encode, Opcode.build]

/-- The encoder and the decoder are each other's inverse. -/
theorem decode_eq_ok_iff_encode (w : Word) (i : Instr) : decode w = .ok i ↔ encode i = w := by
  refine ⟨fun h => ?_, fun h => h ▸ decode_encode i⟩
  obtain ⟨hm, hb⟩ := (decode_eq_ok_iff_matches w i).mp h
  have ho := Opcode.fieldOpc_of_matchesWord _ w hm
  have hw := encode_build _ w ho ((Opcode.matchesWord_iff_unusedFields _ w ho).mp hm)
  rwa [hb] at hw

/-! ### decode_check (R88) -/

theorem fieldCheck_eq_ok_iff (nreg : Nat) (i j : Instr) : fieldCheck nreg i = .ok j ↔ i.wellFormed nreg = true ∧ i = j := by
  unfold fieldCheck
  split
  · simp [*]
  · split
    · split <;> simp [*]
    · simp [*]

theorem decodeCheck_eq_ok_iff (nreg : Nat) (w : Word) (i : Instr) :
    decodeCheck nreg w = .ok i ↔ decode w = .ok i ∧ i.wellFormed nreg = true := by
  unfold decodeCheck
  cases decode w with
  | error e => simp
  | ok j =>
    rw [fieldCheck_eq_ok_iff, Except.ok.injEq, and_comm]
    exact and_congr_right fun h => by rw [h]

/-- Checks 3 and 4 of R88 on a word's fields: indices below NREG, and for XGCD distinct destinations. -/
def FieldsPass (nreg : Nat) (w : Word) : Prop :=
  (∀ f ∈ Machine.usedFields w, f.toNat < nreg)
    ∧ ¬ (fieldOpc w = 0x03 ∧ (fieldRd w = fieldRd2 w ∨ fieldRd w = fieldRd3 w ∨ fieldRd2 w = fieldRd3 w))

theorem build_wellFormed_iff (c : Opcode) (w : Word) (nreg : Nat) (ho : fieldOpc w = c.number) :
    (c.build w).wellFormed nreg = true ↔ FieldsPass nreg w := by
  cases c <;>
    simp [FieldsPass, Opcode.build, Instr.wellFormed, indexBelow, Machine.usedFields, ho, Opcode.number, and_assoc]

theorem wellFormed_iff_of_decode (w : Word) (i : Instr) (nreg : Nat) (h : decode w = .ok i) :
    i.wellFormed nreg = true ↔ FieldsPass nreg w := by
  obtain ⟨hm, hb⟩ := (decode_eq_ok_iff_matches w i).mp h
  rw [← hb]
  exact build_wellFormed_iff _ w nreg (Opcode.fieldOpc_of_matchesWord _ w hm)

theorem exists_decodeCheck_eq_ok_iff (nreg : Nat) (w : Word) :
    (∃ i, decodeCheck nreg w = .ok i) ↔ (∃ i, decode w = .ok i) ∧ FieldsPass nreg w := by
  rw [← exists_and_right]
  refine exists_congr fun i => ?_
  rw [decodeCheck_eq_ok_iff]
  exact and_congr_right (wellFormed_iff_of_decode w i nreg)

end Sys2Proof

namespace Sys2Proof.Machine

/-! ### What the engine does with a word that is no command, and with an error (R87, R90) -/

theorem engineStep_eq_illegal (s : State) (h : ¬ ∃ i, decode s.cmd = .ok i) :
    engineStep s = .next (s.commit (.err .illegal)) := by
  rcases engineStep_cases s with ⟨i, hi, -⟩ | ⟨_, -, e⟩
  · exact absurd ⟨i, hi⟩ h
  · exact e

/-- Only a result that is OK carries writes. -/
theorem CmdResult.writes_of_code_ne_ok (r : CmdResult) (h : r.code ≠ .ok) : r.writes = [] := by
  cases r with
  | ok ws b g => exact absurd rfl h
  | err c => rfl

/-- The end of a command with an error leaves the operand file alone. -/
theorem State.finish_x_of_err (s : State) (i : Instr) (r : CmdResult) (h : (s.finish i r).status.errcode ≠ .ok) :
    (s.finish i r).x = s.x := by
  rcases s.finish_cases i r with ⟨-, e⟩ | ⟨-, e⟩ <;> rw [e] at h ⊢
  · rfl
  · rw [State.commit_status] at h
    rw [State.commit_x, r.writes_of_code_ne_ok h]
    exact s.noteReads_x _

theorem exec_x_of_err (i : Instr) (s t : State) (h : exec i s = .next t) (herr : t.status.errcode ≠ .ok) : t.x = s.x := by
  rw [exec_eq] at h
  cases h
  rw [State.finish_x_of_err _ _ _ herr]
  obtain ⟨src, e⟩ := afterDraws_eq i s
  rw [e]
  rfl

/-! ### The CMD register and the word placed (R34, R84, R85) -/

theorem State.busRead_cmd (s : State) : s.busRead 0x01C = s.cmd := rfl

theorem State.busWrite_cmd (s : State) (w : Word) : s.busWrite 0x01C w = s.writeCmd w := rfl

theorem State.writeCmd_idle (s : State) (w : Word) (hb : s.status.busy = false) : s.writeCmd w = s.issue w := by
  simp [State.writeCmd, hb]

theorem State.writeCmd_busy (s : State) (w : Word) (hb : s.status.busy = true) :
    s.writeCmd w = s.setStatus s.status.overrun := if_pos hb

theorem State.withFetchWord_toNat (s : State) (w : Word) : s.withFetchWord 32 w.toNat = s.withCommand w := by
  rw [State.withFetchWord, Nat.mod_eq_of_lt w.isLt, BitVec.ofNat_toNat, BitVec.setWidth_eq]

/-- The engine moves next where a word has been placed, since it is placed with latency 0. -/
theorem step_withCommand (s : State) (w : Word) : step (s.withCommand w) = engineStep (s.withCommand w) :=
  step_eq_engineStep _ rfl (.inr rfl)

end Sys2Proof.Machine
end

section
/-!
The statements of the family 30_encoding: the encoder and the decoder, the opcode table, decode_check, the issue, and what
an error leaves alone.
-/
namespace Sys2Proof.Machine

/-- Settles O2: the encoder's word has the command's opcode, zeros where its mask looks, and the command's fields. -/
theorem decodeOfEncode : Obligations.DecodeOfEncode := decode_encode

/-- Settles O3: the fields of an accepted word that the encoder sets to 0 are 0. -/
theorem encodeOfDecode : Obligations.EncodeOfDecode := fun w i => (decode_eq_ok_iff_encode w i).mp

/-- Settles O4: the rows by evaluation; every mask covers OPC, so that rows with different numbers do not overlap. -/
theorem opcodeTableSelectsCommand : Obligations.OpcodeTableSelectsCommand := by
  simp only [Obligations.OpcodeTableSelectsCommand, ← Opcode.matchesWord_iff_and]
  refine ⟨rfl, fun c w => (decode_eq_ok_build_iff c w).symm, fun c w => ⟨?_, fun hm => ?_⟩, fun c d w hc hd => ?_,
    fun w => ⟨rfl, rfl, rfl, rfl, rfl, rfl, rfl, rfl⟩⟩
  · rintro ⟨i, hi, rfl⟩
    exact ((decode_eq_ok_iff_matches w i).mp hi).1
  · exact ⟨c.build w, (decode_eq_ok_build_iff c w).mpr hm, opcodeOfInstr_build c w⟩
  · exact Opcode.number_injective ((c.fieldOpc_of_matchesWord w hc).symm.trans (d.fieldOpc_of_matchesWord w hd))

/-- Settles O5: checks 1 and 2 are decode's, checks 3 and 4 those of the decoded command's fields. -/
theorem decodeCheckVerdict : Obligations.DecodeCheckVerdict := by
  intro nreg w
  rw [exists_decodeCheck_eq_ok_iff, exists_decode_eq_ok_iff, FieldsPass]
  simp only [not_or, not_exists, not_and, not_not, not_lt, not_le, and_assoc, ne_eq]

/-- Settles O6: such a word is no command; and only the word the encoder gives NOP decodes to NOP. -/
theorem reservedEncodingsAreIllegal : Obligations.ReservedEncodingsAreIllegal := by
  refine ⟨fun s h => engineStep_eq_illegal s fun hi => ?_, fun w => ?_⟩
  · obtain ⟨ho, hu⟩ := (exists_decode_eq_ok_iff s.cmd).mp hi
    rcases h with h | ⟨f, hf, hne⟩
    · omega
    · exact hne (hu f hf)
  · rw [decode_eq_ok_iff_encode, eq_comm, show encode .nop = 0x00000000 by decide]

/-- Settles O9: the word is placed with latency 0, so the engine moves, and it decodes to the command. -/
theorem issuedWordRunsNext : Obligations.IssuedWordRunsNext := by
  intro s i
  rw [s.withFetchWord_toNat]
  exact ⟨(step_withCommand s _).trans (engineStep_eq_exec _ i (decode_encode i)), rfl⟩

/-- Settles O30: an error's result carries no writes and no signs. -/
theorem errorCommitsNothing : Obligations.ErrorCommitsNothing := by
  refine ⟨fun s t h herr => ?_, fun s => ⟨rfl, rfl, rfl, rfl, rfl, rfl, rfl, rfl, rfl⟩⟩
  rcases engineStep_cases s with ⟨i, -, e⟩ | ⟨_, -, e⟩
  · have hexec : exec i s = .next t := e ▸ h
    obtain ⟨-, hie, hcfg, hcmd⟩ := exec_control i s t hexec
    obtain ⟨code, res, hst⟩ := exec_completes i s t hexec
    exact ⟨exec_x_of_err i s t hexec herr, (exec_errcode_or_xsgn i s t hexec).resolve_left herr, hcfg, hie, hcmd,
      exec_res_of_err i s t hexec herr, by rw [hst]; rfl, by rw [hst]; rfl⟩
  · cases e.symm.trans h
    exact ⟨rfl, rfl, rfl, rfl, rfl, rfl, rfl, rfl⟩

/-- Settles O1: by evaluation of the decoder and the assembler on the words of R92, R93 and 95. -/
theorem specWordsDecode : Obligations.SpecWordsDecode := by
  unfold Obligations.SpecWordsDecode
  decide

/-- Settles O10: the idle branch of the CMD write. -/
theorem issueEffect : Obligations.IssueEffect := by
  refine ⟨fun s w hb => ?_, State.busRead_cmd⟩
  rw [s.busWrite_cmd, s.writeCmd_idle w hb]
  exact ⟨⟨_, _, rfl⟩, rfl, rfl⟩

/-- Settles O11: the busy branch of the CMD write. -/
theorem cmdWriteWhileBusyIsDropped : Obligations.CmdWriteWhileBusyIsDropped := by
  intro s w hb
  rw [s.busWrite_cmd, s.writeCmd_busy w hb]
  rfl

end Sys2Proof.Machine
end

section
/-!
How a legal command ends, from the result of its `execute`: with an error, with OK, and with one register written; and what
that says of MODMUL (R100).
-/
namespace Sys2Proof

@[simp] theorem indexBelow_iff (nreg : Nat) (r : RegIdx) : indexBelow nreg r = true ↔ r.toNat < nreg := decide_eq_true_iff

theorem Params.nbits_ge_of_legal (p : Params) (h : p.legal = true) : 64 ≤ p.nbits := by
  simp only [Params.legal, Bool.and_eq_true, decide_eq_true_eq] at h
  omega

end Sys2Proof

namespace Sys2Proof.Machine

theorem State.operand_lt_of_inv (s : State) (r : RegIdx) (h : s.inv = true) (hr : s.hasReg r) :
    s.operand r < 2 ^ s.params.nbits := by
  obtain ⟨hp, hx, -, -⟩ := s.inv_iff.mp h
  rw [← s.params.words_mul_of_legal hp]
  exact s.operand_lt r hx hr

theorem exists_exec_eq_next (i : Instr) (s : State) : ∃ t, exec i s = .next t := ⟨_, exec_eq i s⟩

/-! ### The end of a command with an error (R87, R190) -/

/-- Where STATUS shows a command's error, nothing but STATUS has changed. -/
theorem exec_failedWith (i : Instr) (s t : State) (c : ErrCode) (h : exec i s = .next t) (hc : c ≠ .ok)
    (hst : t.status = s.status.completed c false) : FailedWith c s t := by
  have herr : t.status.errcode ≠ .ok := by simpa [hst] using hc
  exact ⟨hst, exec_x_of_err i s t h herr, (exec_errcode_or_xsgn i s t h).resolve_left herr, exec_control i s t h,
    exec_agents i s t h⟩

/-- A command whose fields fail checks 3 and 4 of R88 ends with ILLEGAL. -/
theorem exec_of_not_legal (i : Instr) (s : State) (hl : ¬ s.legal i = true) :
    ∃ t, exec i s = .next t ∧ FailedWith .illegal s t := by
  obtain ⟨t, ht⟩ := exists_exec_eq_next i s
  exact ⟨t, ht, exec_failedWith i s t .illegal ht (by decide) ((exec_status i s t ht).trans (if_neg hl))⟩

/-- A legal command whose `execute` answers an error ends with it. -/
theorem exec_of_err (i : Instr) (s : State) (c : ErrCode) (hl : s.legal i = true) (hr : resultOf s i = .err c)
    (hc : c ≠ .ok) : ∃ t, exec i s = .next t ∧ FailedWith c s t := by
  obtain ⟨t, ht⟩ := exists_exec_eq_next i s
  have hst := exec_status i s t ht
  rw [if_pos hl, hr] at hst
  exact ⟨t, ht, exec_failedWith i s t c ht hc hst⟩

/-! ### The end of a command with OK (R86) -/

/-- A legal command whose `execute` answers OK changes its destinations alone, beside STATUS and XSGN. -/
theorem exec_succeededWith (i : Instr) (s t : State) (ws : List (RegIdx × Nat)) (b : Bool) (g : Option Xsgn)
    (h : exec i s = .next t) (hl : s.legal i = true) (hr : resultOf s i = .ok ws b g) :
    SucceededWith (destinations i) b s t := by
  have hst := exec_status i s t h
  rw [if_pos hl, hr] at hst
  exact ⟨hst, exec_reg i s t h, exec_control i s t h, exec_agents i s t h⟩

/-- The writes of a commit change the operand file by what the file and NBITS are alone. -/
theorem State.writeRegs_x_congr (ws : List (RegIdx × Nat)) (s u : State) (hx : u.x = s.x) (hp : u.params = s.params) :
    (u.writeRegs ws).x = (s.writeRegs ws).x := by
  induction ws generalizing s u with
  | nil => exact hx
  | cons w ws ih => exact ih _ _ (by simp [hx, hp]) hp

/-- The operand file after a legal command is the one before with the writes of its result. -/
theorem exec_x (i : Instr) (s t : State) (h : exec i s = .next t) (hl : s.legal i = true) :
    t.x = (s.writeRegs (resultOf s i).writes).x := by
  rw [exec_eq] at h
  cases h
  rw [State.finish, afterDraws_legal, if_pos hl, State.commit_x]
  obtain ⟨src, e⟩ := afterDraws_eq i s
  exact State.writeRegs_x_congr _ _ _ (by simp [e]) (by simp [e])

/-- A legal command whose result is the one write X[r] <- v leaves X[r] defined, with the value v. -/
theorem exec_single_write (i : Instr) (s t : State) (r : RegIdx) (v : Nat) (b : Bool) (g : Option Xsgn)
    (h : exec i s = .next t) (hi : s.inv = true) (hl : s.legal i = true) (hrd : s.hasReg r)
    (hr : resultOf s i = .ok [(r, v)] b g) (hv : v < 2 ^ s.params.nbits) :
    t.operandDefined r = true ∧ t.operand r = v := by
  obtain ⟨hp, hx, -, -⟩ := s.inv_iff.mp hi
  obtain ⟨hlen, -⟩ := s.fileWf_iff.mp hx
  have hreg : t.reg r.toNat = wordsOf s.params.words v := by
    rw [← s.writeReg_reg_eq r v (hlen ▸ hrd), State.reg, exec_x i s t h hl, hr]
    rfl
  constructor
  · rw [State.operandDefined, hreg]
    exact List.all_eq_true.mpr (wordsOf_written _ _)
  · rw [State.operand, hreg, wordsValue_wordsOf, s.params.words_mul_of_legal hp, Nat.mod_eq_of_lt hv]

/-! ### MODMUL (R100) -/

theorem State.legal_modmul (s : State) (rd rs1 rs2 rs3 : RegIdx) :
    s.legal (.modmul rd rs1 rs2 rs3) = true ↔ s.hasReg rd ∧ s.hasReg rs1 ∧ s.hasReg rs2 ∧ s.hasReg rs3 := by
  simp [State.legal, Instr.wellFormed, and_assoc]

theorem resultOf_modmul_zero (s : State) (rd rs1 rs2 rs3 : RegIdx) (hm : s.operand rs3 = 0) :
    resultOf s (.modmul rd rs1 rs2 rs3) = .err .invalidParam := if_pos hm

theorem resultOf_modmul (s : State) (rd rs1 rs2 rs3 : RegIdx) (hm : s.operand rs3 ≠ 0) :
    resultOf s (.modmul rd rs1 rs2 rs3) =
      .ok [(rd, s.operand rs1 * s.operand rs2 % s.operand rs3)] false none := if_neg hm

/-- X[RD] after a MODMUL with m ≠ 0: defined, and (a·b) mod m of the values before. -/
theorem exec_modmul_operand (s t : State) (rd rs1 rs2 rs3 : RegIdx) (h : exec (.modmul rd rs1 rs2 rs3) s = .next t)
    (hi : s.inv = true) (hl : s.legal (.modmul rd rs1 rs2 rs3) = true) (hm : s.operand rs3 ≠ 0) :
    t.operandDefined rd = true ∧ t.operand rd = s.operand rs1 * s.operand rs2 % s.operand rs3 := by
  obtain ⟨hrd, -, -, hrs3⟩ := (s.legal_modmul rd rs1 rs2 rs3).mp hl
  have hlt : s.operand rs1 * s.operand rs2 % s.operand rs3 < 2 ^ s.params.nbits :=
    (Nat.mod_lt _ (Nat.pos_of_ne_zero hm)).trans (s.operand_lt_of_inv rs3 hi hrs3)
  exact exec_single_write _ s t rd _ false none h hi hl hrd (resultOf_modmul s rd rs1 rs2 rs3 hm) hlt

/-! ### The arithmetic of R101 -/

/-- (−1)² ≡ 1, with −1 as the residue m − 1. -/
theorem sub_one_mul_self_mod (m : Nat) (h : 2 ≤ m) : (m - 1) * (m - 1) % m = 1 := by
  obtain ⟨k, rfl⟩ := Nat.exists_eq_add_of_le' h
  have hsq : (k + 2 - 1) * (k + 2 - 1) = (k + 2) * k + 1 := by
    rw [Nat.add_sub_assoc (by decide)]
    ring
  rw [hsq, Nat.mul_add_mod, Nat.mod_eq_of_lt (by omega)]

/-- The product of two factors of n bits is at most (2^n − 1)². -/
theorem mul_le_of_lt_two_pow (a b n : Nat) (ha : a < 2 ^ n) (hb : b < 2 ^ n) :
    a * b ≤ 2 ^ (2 * n) - 2 ^ (n + 1) + 1 := by
  obtain ⟨k, hk⟩ := Nat.exists_eq_add_of_lt (Nat.two_pow_pos n)
  have hab : a * b ≤ k * k := Nat.mul_le_mul (by omega) (by omega)
  have hsq : 2 ^ (2 * n) + 1 = k * k + 2 ^ (n + 1) := by
    rw [two_mul, pow_add, pow_succ, hk]
    ring
  omega

end Sys2Proof.Machine
end

section
/-!
The statements of the family 40_modmul: the result, the errors and the corner cases of MODMUL.
-/
namespace Sys2Proof.Machine

/-- Settles O37: X[RD] from the one write of the result, the rest from the frame of a command's end.
(`modmulResult` is the model's own `execute`, hence the suffix.) -/
theorem modmulResult_holds : Obligations.ModmulResult := by
  refine ⟨fun rd rs1 rs2 rs3 => ⟨decode_encode (.modmul rd rs1 rs2 rs3), rfl⟩,
    fun s rd rs1 rs2 rs3 hi hrd h1 h2 h3 hm => ?_, fun s rd rs1 rs2 rs3 hrd h1 h2 h3 hm => ?_,
    fun s rd rs1 rs2 rs3 hno => exec_of_not_legal _ s fun hl => hno ((s.legal_modmul rd rs1 rs2 rs3).mp hl)⟩
  · have hl := (s.legal_modmul rd rs1 rs2 rs3).mpr ⟨hrd, h1, h2, h3⟩
    obtain ⟨t, ht⟩ := exists_exec_eq_next (.modmul rd rs1 rs2 rs3) s
    obtain ⟨hdef, hval⟩ := exec_modmul_operand s t rd rs1 rs2 rs3 ht hi hl hm
    have hlt : t.operand rd < s.operand rs3 := hval ▸ Nat.mod_lt _ (Nat.pos_of_ne_zero hm)
    exact ⟨t, ht, exec_succeededWith _ s t _ _ _ ht hl (resultOf_modmul s rd rs1 rs2 rs3 hm),
      exec_xsgn _ s t ht (by simp), hdef, hval, hlt, hlt.trans (s.operand_lt_of_inv rs3 hi h3)⟩
  · have hl := (s.legal_modmul rd rs1 rs2 rs3).mpr ⟨hrd, h1, h2, h3⟩
    exact exec_of_err _ s .invalidParam hl (resultOf_modmul_zero s rd rs1 rs2 rs3 hm) (by decide)

/-- Settles O38: each corner is arithmetic on (a·b) mod m of the values before. -/
theorem modmulCornerCases : Obligations.ModmulCornerCases := by
  intro s t rd rs1 rs2 rs3 hi hrd h1 h2 h3 ht
  have hval : s.operand rs3 ≠ 0 → t.operand rd = s.operand rs1 * s.operand rs2 % s.operand rs3 := fun hm =>
    (exec_modmul_operand s t rd rs1 rs2 rs3 ht hi ((s.legal_modmul rd rs1 rs2 rs3).mpr ⟨hrd, h1, h2, h3⟩) hm).2
  have hbits : 2 ^ 64 ≤ 2 ^ s.params.nbits :=
    Nat.pow_le_pow_right (by decide) (s.params.nbits_ge_of_legal (s.params_legal_of_inv hi))
  refine ⟨fun hm => ?_, fun hm hz => ?_, fun hm _ => ?_, fun hm he => ?_, fun hm hb => ?_, fun hm _ => hval hm,
    fun hm ha hb => ?_, mul_le_of_lt_two_pow _ _ _ (s.operand_lt_of_inv rs1 hi h1) (s.operand_lt_of_inv rs2 hi h2)⟩
  · rw [hval (by omega), hm, Nat.mod_one]
  · rw [hval hm, Nat.mul_eq_zero.mpr hz, Nat.zero_mod]
  · rw [hval hm, Nat.mul_mod]
  · rw [hval hm, he, sq]
  · rw [hval hm, hb, mul_one]
  · rw [hval (by omega), hm, ha, hb]
    exact sub_one_mul_self_mod (2 ^ s.params.nbits - 1) (by omega)

end Sys2Proof.Machine
end

section
/-!
What the end of a command says of MODEXP (R110); and a write of a residue, which is in range because the modulus is.
-/
namespace Sys2Proof.Machine

/-- A legal command whose result is the one write X[r] <- v mod X[m] leaves that residue in X[r], defined. -/
theorem exec_residue_write (i : Instr) (s t : State) (r m : RegIdx) (v : Nat) (b : Bool) (g : Option Xsgn)
    (h : exec i s = .next t) (hi : s.inv = true) (hl : s.legal i = true) (hrd : s.hasReg r) (hrm : s.hasReg m)
    (hm : s.operand m ≠ 0) (hr : resultOf s i = .ok [(r, v % s.operand m)] b g) :
    t.operandDefined r = true ∧ t.operand r = v % s.operand m := by
  have hlt : v % s.operand m < 2 ^ s.params.nbits :=
    (Nat.mod_lt _ (Nat.pos_of_ne_zero hm)).trans (s.operand_lt_of_inv m hi hrm)
  exact exec_single_write i s t r _ b g h hi hl hrd hr hlt

theorem State.legal_modexp (s : State) (rd rs1 rs2 rs3 : RegIdx) :
    s.legal (.modexp rd rs1 rs2 rs3) = true ↔ s.hasReg rd ∧ s.hasReg rs1 ∧ s.hasReg rs2 ∧ s.hasReg rs3 := by
  simp [State.legal, Instr.wellFormed, and_assoc]

theorem resultOf_modexp_zero (s : State) (rd rs1 rs2 rs3 : RegIdx) (hm : s.operand rs3 = 0) :
    resultOf s (.modexp rd rs1 rs2 rs3) = .err .invalidParam := if_pos hm

theorem resultOf_modexp (s : State) (rd rs1 rs2 rs3 : RegIdx) (hm : s.operand rs3 ≠ 0) :
    resultOf s (.modexp rd rs1 rs2 rs3) =
      .ok [(rd, s.operand rs1 ^ s.operand rs2 % s.operand rs3)] false none := by
  rw [← powMod_eq]
  exact if_neg hm

/-- X[RD] after a MODEXP with m ≠ 0: defined, and b^e mod m of the values before. -/
theorem exec_modexp_operand (s t : State) (rd rs1 rs2 rs3 : RegIdx) (h : exec (.modexp rd rs1 rs2 rs3) s = .next t)
    (hi : s.inv = true) (hl : s.legal (.modexp rd rs1 rs2 rs3) = true) (hm : s.operand rs3 ≠ 0) :
    t.operandDefined rd = true ∧ t.operand rd = s.operand rs1 ^ s.operand rs2 % s.operand rs3 := by
  obtain ⟨hrd, -, -, hrs3⟩ := (s.legal_modexp rd rs1 rs2 rs3).mp hl
  exact exec_residue_write _ s t rd rs3 _ false none h hi hl hrd hrs3 hm (resultOf_modexp s rd rs1 rs2 rs3 hm)

/-- A legal MODEXP with m = 0 is the error of R110. -/
theorem exec_modexp_zero (s : State) (rd rs1 rs2 rs3 : RegIdx) (hl : s.legal (.modexp rd rs1 rs2 rs3) = true)
    (hm : s.operand rs3 = 0) : ∃ t, exec (.modexp rd rs1 rs2 rs3) s = .next t ∧ FailedWith .invalidParam s t :=
  exec_of_err _ s .invalidParam hl (resultOf_modexp_zero s rd rs1 rs2 rs3 hm) (by decide)

end Sys2Proof.Machine
end

section
/-!
The statements of the family 41_modexp: the result, the errors and the corner cases of MODEXP.
-/
namespace Sys2Proof.Machine

/-- Settles O39: X[RD] from the one write of the result, the rest from the frame of a command's end.
(`modexpResult` is the model's own `execute`, hence the suffix.) -/
theorem modexpResult_holds : Obligations.ModexpResult := by
  refine ⟨fun rd rs1 rs2 rs3 => ⟨decode_encode (.modexp rd rs1 rs2 rs3), rfl⟩,
    fun s rd rs1 rs2 rs3 hi hrd h1 h2 h3 hm => ?_,
    fun s rd rs1 rs2 rs3 hrd h1 h2 h3 hm =>
      exec_modexp_zero s rd rs1 rs2 rs3 ((s.legal_modexp rd rs1 rs2 rs3).mpr ⟨hrd, h1, h2, h3⟩) hm,
    fun s rd rs1 rs2 rs3 hno => exec_of_not_legal _ s fun hl => hno ((s.legal_modexp rd rs1 rs2 rs3).mp hl)⟩
  have hl := (s.legal_modexp rd rs1 rs2 rs3).mpr ⟨hrd, h1, h2, h3⟩
  obtain ⟨t, ht⟩ := exists_exec_eq_next (.modexp rd rs1 rs2 rs3) s
  exact ⟨t, ht, exec_succeededWith _ s t _ _ _ ht hl (resultOf_modexp s rd rs1 rs2 rs3 hm),
    exec_xsgn _ s t ht (by simp), exec_modexp_operand s t rd rs1 rs2 rs3 ht hi hl hm⟩

/-- Settles O40: each corner but m = 0 is arithmetic on b^e mod m of the values before. -/
theorem modexpCornerCases : Obligations.ModexpCornerCases := by
  intro s t rd rs1 rs2 rs3 hi hrd h1 h2 h3 ht
  have hl := (s.legal_modexp rd rs1 rs2 rs3).mpr ⟨hrd, h1, h2, h3⟩
  have hval : s.operand rs3 ≠ 0 → t.operand rd = s.operand rs1 ^ s.operand rs2 % s.operand rs3 := fun hm =>
    (exec_modexp_operand s t rd rs1 rs2 rs3 ht hi hl hm).2
  refine ⟨fun he hm => ?_, fun hm => ?_, fun hb he hm => ?_, fun hm _ => ?_, fun hm hb he => ?_, fun hm he => ?_,
    fun hm => ?_, fun hm _ => hval hm⟩
  · rw [hval (by omega), he, pow_zero, Nat.mod_eq_of_lt hm]
  · rw [hval (by omega), hm, Nat.mod_one]
  · rw [hval hm, hb, zero_pow (by omega), Nat.zero_mod]
  · rw [hval hm, Nat.pow_mod]
  · rw [hval hm, Nat.pow_mod, hb, zero_pow (by omega), Nat.zero_mod]
  · rw [hval hm, he, pow_one]
  · obtain ⟨u, hu, hst, -⟩ := exec_modexp_zero s rd rs1 rs2 rs3 hl hm
    obtain rfl : u = t := by simpa using hu.symm.trans ht
    exact congrArg Status.errcode hst

end Sys2Proof.Machine
end

section
/-!
The triple of R120 in its shape: a divisor as second argument, the swap of a smaller first argument, the reduction of the
first argument, the sizes of R122; and the residue that MODINV takes from it (R124).
-/
namespace Sys2Proof.Machine

/-! ### Special arguments (R123) -/

/-- The recursion ends after one call where the second argument divides the first. -/
theorem ext_of_dvd (a b : Nat) (hb : 0 < b) (h : b ∣ a) : ext a b = { g := b, s := 0, t := 1 } := by
  simp [ext_step a b hb, Nat.mod_eq_zero_of_dvd h, ext_zero_right]

/-- The first call swaps arguments that are in increasing order. -/
theorem ext_of_lt (a b : Nat) (h : a < b) : ext a b = { g := (ext b a).g, s := (ext b a).t, t := (ext b a).s } := by
  simp [ext_step a b (by omega), Nat.mod_eq_of_lt h, Nat.div_eq_of_lt h]

/-- Reducing the first argument modulo the second leaves the first coefficient alone. -/
theorem ext_mod_left_s (a b : Nat) (hb : 0 < b) : (ext (a % b) b).s = (ext a b).s := by
  rw [ext_step (a % b) b hb, ext_step a b hb, Nat.mod_mod]

/-! ### The size of the coefficients (R122) -/

/-- A common divisor with a smaller positive number is at most a half. -/
theorem two_mul_gcd_le_of_lt (b r : Nat) (hr : 0 < r) (hlt : r < b) : 2 * Nat.gcd b r ≤ b := by
  by_contra hgt
  have heq : b = Nat.gcd b r := Nat.eq_of_dvd_of_lt_two_mul (by omega) (Nat.gcd_dvd_left b r) (by omega)
  have hle : Nat.gcd b r ≤ r := Nat.gcd_le_right b hr
  omega

/-- One step of R120 back keeps the bound of the second coefficient, whatever the common factor k. -/
theorem natAbs_sub_mul_le (k q r b : Nat) (s t : Int) (hs : k * s.natAbs ≤ r) (ht : k * t.natAbs ≤ b) :
    k * (s - (q : Int) * t).natAbs ≤ b * q + r := by
  have hsub : (s - (q : Int) * t).natAbs ≤ s.natAbs + q * t.natAbs := by
    simpa [Int.natAbs_mul] using Int.natAbs_sub_le s (q * t)
  calc k * (s - (q : Int) * t).natAbs
      ≤ k * (s.natAbs + q * t.natAbs) := Nat.mul_le_mul_left k hsub
    _ = q * (k * t.natAbs) + k * s.natAbs := by ring
    _ ≤ q * b + r := Nat.add_le_add (Nat.mul_le_mul_left q ht) hs
    _ = b * q + r := by ring

/-- For b ≥ 1 the recursion ends at once with the coefficients 0 and 1, or they are at most b / (2g) and a / (2g). -/
theorem ext_coeffs_cases (a b : Nat) (hb : 0 < b) :
    ((ext a b).s = 0 ∧ (ext a b).t = 1)
      ∨ (2 * Nat.gcd a b * (ext a b).s.natAbs ≤ b ∧ 2 * Nat.gcd a b * (ext a b).t.natAbs ≤ a) := by
  induction a, b using ext_induction with
  | h0 a => omega
  | hs a b _ ih =>
    rcases Nat.eq_zero_or_pos (a % b) with hr | hr
    · simp [ext_of_dvd a b hb (Nat.dvd_of_mod_eq_zero hr)]
    · have hgcd : Nat.gcd a b = Nat.gcd b (a % b) := by rw [Nat.gcd_comm b, ← Nat.gcd_rec, Nat.gcd_comm]
      have hhalf : 2 * Nat.gcd b (a % b) ≤ b := two_mul_gcd_le_of_lt b (a % b) hr (Nat.mod_lt a hb)
      have hback := natAbs_sub_mul_le (2 * Nat.gcd b (a % b)) (a / b) (a % b) b (ext b (a % b)).s (ext b (a % b)).t
      rw [Nat.div_add_mod] at hback
      rw [ext_step a b hb, hgcd]
      right
      rcases ih hr with ⟨hs, ht⟩ | ⟨hs, ht⟩
      · have ht' : 2 * Nat.gcd b (a % b) * (ext b (a % b)).t.natAbs ≤ b := by simpa [ht] using hhalf
        exact ⟨ht', hback (by simp [hs]) ht'⟩
      · exact ⟨ht, hback hs ht⟩

/-- The triple of R120 is at most max(a, b, 1) in every part, so that it fits the registers. -/
theorem ext_le_max (a b : Nat) :
    (ext a b).s.natAbs ≤ max (max a b) 1 ∧ (ext a b).t.natAbs ≤ max (max a b) 1 ∧ (ext a b).g ≤ max (max a b) 1 := by
  rcases Nat.eq_zero_or_pos b with rfl | hb
  · simp [ext_zero_right]
  · have hg : Nat.gcd a b ≤ b := Nat.gcd_le_right a hb
    have hpos : 0 < 2 * Nat.gcd a b := Nat.mul_pos two_pos (Nat.gcd_pos_of_pos_right a hb)
    rw [ext_gcd]
    rcases ext_coeffs_cases a b hb with ⟨hs, ht⟩ | ⟨hs, ht⟩
    · rw [hs, ht]
      omega
    · have hs' := (Nat.le_mul_of_pos_left _ hpos).trans hs
      have ht' := (Nat.le_mul_of_pos_left _ hpos).trans ht
      omega

/-! ### A coefficient as a sign and a magnitude (R12) -/

theorem neg_one_pow_sign_mul_natAbs (z : Int) : (-1 : Int) ^ (decide (z < 0)).toNat * (z.natAbs : Int) = z := by
  by_cases hz : z < 0
  · simp [hz, Int.ofNat_natAbs_of_nonpos hz.le]
  · simp [hz, Int.natAbs_of_nonneg (not_lt.mp hz)]

/-! ### The residue of MODINV (R124) -/

/-- s mod n of R124, the floor-mod of the first coefficient of ext(a, n). -/
def modInverse (a n : Nat) : Nat := ((ext a n).s % (n : Int)).toNat

theorem modInverse_cast (a n : Nat) (hn : n ≠ 0) : (modInverse a n : Int) = (ext a n).s % (n : Int) :=
  Int.toNat_of_nonneg (Int.emod_nonneg _ (by exact_mod_cast hn))

theorem modInverse_lt (a n : Nat) (hn : n ≠ 0) : modInverse a n < n := by
  have hlt : (ext a n).s % (n : Int) < n := Int.emod_lt_of_pos _ (by omega)
  rw [← modInverse_cast a n hn] at hlt
  exact_mod_cast hlt

/-- Where gcd(a, n) = 1 the residue is an inverse: t·n falls out of the Bézout identity modulo n. -/
theorem mul_modInverse_modEq (a n : Nat) (hn : n ≠ 0) (hg : Nat.gcd a n = 1) : a * modInverse a n ≡ 1 [MOD n] := by
  rw [← Int.natCast_modEq_iff, Nat.cast_mul, modInverse_cast a n hn]
  have hbez := ext_bezout a n
  rw [ext_gcd, hg] at hbez
  calc (a : Int) * ((ext a n).s % n)
      ≡ a * (ext a n).s [ZMOD n] := (Int.mod_modEq _ _).mul_left _
    _ ≡ a * (ext a n).s + n * (ext a n).t [ZMOD n] := Int.modEq_add_fac_self.symm
    _ = (1 : Nat) := by rw [← hbez]; ring

/-- The inverse below n is unique. -/
theorem eq_modInverse (a n x : Nat) (hn : n ≠ 0) (hg : Nat.gcd a n = 1) (hx : x < n) (h : a * x ≡ 1 [MOD n]) :
    x = modInverse a n := by
  have hmul : a * x ≡ a * modInverse a n [MOD n] := h.trans (mul_modInverse_modEq a n hn hg).symm
  exact (hmul.cancel_left_of_coprime (Nat.gcd_comm n a ▸ hg)).eq_of_lt_of_lt hx (modInverse_lt a n hn)

theorem modinvResult_zero (rd : RegIdx) (a : Nat) : modinvResult rd a 0 = .err .invalidParam := rfl

theorem modinvResult_noInverse (rd : RegIdx) (a n : Nat) (hn : n ≠ 0) (hg : Nat.gcd a n ≠ 1) :
    modinvResult rd a n = .err .noInverse := by
  simp [modinvResult, hn, ext_gcd, hg]

theorem modinvResult_ok (rd : RegIdx) (a n : Nat) (hn : n ≠ 0) (hg : Nat.gcd a n = 1) :
    modinvResult rd a n = .ok [(rd, modInverse a n)] false none := by
  simp [modinvResult, hn, ext_gcd, hg, modInverse]

/-- MODINV reads a modulo n alone (R125). -/
theorem modinvResult_mod (rd : RegIdx) (a n : Nat) (hn : n ≠ 0) : modinvResult rd (a % n) n = modinvResult rd a n := by
  simp [modinvResult, hn, ext_gcd, ext_mod_left_s a n (Nat.pos_of_ne_zero hn)]

end Sys2Proof.Machine
end

section
/-!
The end of a command with several writes (R86); and what it says of XGCD (R121) and MODINV (R124).
-/
namespace Sys2Proof.Machine

theorem exec_next_unique (i : Instr) (s t u : State) (ht : exec i s = .next t) (hu : exec i s = .next u) : t = u := by
  simpa using ht.symm.trans hu

/-! ### A commit with several writes -/

/-- A register that a commit names once holds exactly the words of the value named with it. -/
theorem State.writeRegs_reg_mem (ws : List (RegIdx × Nat)) (s : State) (r : RegIdx) (v : Nat)
    (hnd : (ws.map Prod.fst).Nodup) (hmem : (r, v) ∈ ws) (hr : r.toNat < s.x.length) :
    (s.writeRegs ws).reg r.toNat = wordsOf s.params.words v := by
  induction ws generalizing s with
  | nil => cases hmem
  | cons w ws ih =>
    obtain ⟨hfst, hnd⟩ := List.nodup_cons.mp hnd
    rcases List.mem_cons.mp hmem with rfl | hmem
    · have hne : ∀ w ∈ ws, w.1.toNat ≠ r.toNat := fun w hw he =>
        hfst (List.mem_map.mpr ⟨w, hw, BitVec.eq_of_toNat_eq he⟩)
      exact (State.writeRegs_reg_ne ws _ _ hne).trans (s.writeReg_reg_eq r v hr)
    · exact ih (s.writeReg w.1 w.2) hnd hmem (by simpa using hr)

/-- A legal command leaves each register that its result names once defined, with the value named with it. -/
theorem exec_write_mem (i : Instr) (s t : State) (r : RegIdx) (v : Nat) (h : exec i s = .next t) (hi : s.inv = true)
    (hl : s.legal i = true) (hr : s.hasReg r) (hnd : ((resultOf s i).writes.map Prod.fst).Nodup)
    (hmem : (r, v) ∈ (resultOf s i).writes) (hv : v < 2 ^ s.params.nbits) :
    t.operandDefined r = true ∧ t.operand r = v := by
  obtain ⟨hp, hx, -, -⟩ := s.inv_iff.mp hi
  obtain ⟨hlen, -⟩ := s.fileWf_iff.mp hx
  have hreg : t.reg r.toNat = wordsOf s.params.words v := by
    rw [← State.writeRegs_reg_mem _ s r v hnd hmem (hlen ▸ hr), State.reg, exec_x i s t h hl]
    rfl
  constructor
  · rw [State.operandDefined, hreg]
    exact List.all_eq_true.mpr (wordsOf_written _ _)
  · rw [State.operand, hreg, wordsValue_wordsOf, s.params.words_mul_of_legal hp, Nat.mod_eq_of_lt hv]

/-- A legal command whose result carries signs leaves them in XSGN. -/
theorem exec_xsgn_of_signs (i : Instr) (s t : State) (ws : List (RegIdx × Nat)) (b : Bool) (g : Xsgn)
    (h : exec i s = .next t) (hl : s.legal i = true) (hr : resultOf s i = .ok ws b (some g)) : t.xsgn = g := by
  rw [exec_eq, hr] at h
  cases h
  rw [State.finish, afterDraws_legal, if_pos hl, State.commit_ok_xsgn, Option.getD_some]

/-! ### XGCD (R121) -/

theorem State.legal_xgcd (s : State) (rd rs1 rs2 rd2 rd3 : RegIdx) :
    s.legal (.xgcd rd rs1 rs2 rd2 rd3) = true ↔
      s.hasReg rd ∧ s.hasReg rs1 ∧ s.hasReg rs2 ∧ s.hasReg rd2 ∧ s.hasReg rd3 ∧ rd ≠ rd2 ∧ rd ≠ rd3 ∧ rd2 ≠ rd3 := by
  simp [State.legal, Instr.wellFormed, and_assoc]

section
variable (s t : State) (rd rs1 rs2 rd2 rd3 : RegIdx) (h : exec (.xgcd rd rs1 rs2 rd2 rd3) s = .next t)
  (hl : s.legal (.xgcd rd rs1 rs2 rd2 rd3) = true)
include h hl

theorem exec_xgcd_xsgn : t.xsgn = bezoutSigns (ext (s.operand rs1) (s.operand rs2)) :=
  exec_xsgn_of_signs _ s t _ _ _ h hl rfl

/-- After a legal XGCD the destinations are defined and hold g, |s| and |t| of the values before. -/
theorem exec_xgcd_operands (hi : s.inv = true) :
    (t.operandDefined rd = true ∧ t.operand rd = (ext (s.operand rs1) (s.operand rs2)).g)
      ∧ (t.operandDefined rd2 = true ∧ t.operand rd2 = (ext (s.operand rs1) (s.operand rs2)).s.natAbs)
      ∧ (t.operandDefined rd3 = true ∧ t.operand rd3 = (ext (s.operand rs1) (s.operand rs2)).t.natAbs) := by
  obtain ⟨hrd, h1, h2, hrd2, hrd3, hne12, hne13, hne23⟩ := (s.legal_xgcd rd rs1 rs2 rd2 rd3).mp hl
  have hnd : ((resultOf s (.xgcd rd rs1 rs2 rd2 rd3)).writes.map Prod.fst).Nodup := by
    simp [resultOf, xgcdResult, CmdResult.writes, hne12, hne13, hne23]
  have hbits : 64 ≤ s.params.nbits := s.params.nbits_ge_of_legal (s.params_legal_of_inv hi)
  have hmax : max (max (s.operand rs1) (s.operand rs2)) 1 < 2 ^ s.params.nbits :=
    max_lt (max_lt (s.operand_lt_of_inv rs1 hi h1) (s.operand_lt_of_inv rs2 hi h2))
      (Nat.one_lt_two_pow (by omega))
  obtain ⟨hs, ht, hg⟩ := ext_le_max (s.operand rs1) (s.operand rs2)
  exact ⟨exec_write_mem _ s t rd _ h hi hl hrd hnd (.head _) (hg.trans_lt hmax),
    exec_write_mem _ s t rd2 _ h hi hl hrd2 hnd (.tail _ (.head _)) (hs.trans_lt hmax),
    exec_write_mem _ s t rd3 _ h hi hl hrd3 hnd (.tail _ (.tail _ (.head _))) (ht.trans_lt hmax)⟩

end

/-! ### MODINV (R124) -/

theorem State.legal_modinv (s : State) (rd rs1 rs2 : RegIdx) :
    s.legal (.modinv rd rs1 rs2) = true ↔ s.hasReg rd ∧ s.hasReg rs1 ∧ s.hasReg rs2 := by
  simp [State.legal, Instr.wellFormed, and_assoc]

section
variable (s : State) (rd rs1 rs2 : RegIdx) (hl : s.legal (.modinv rd rs1 rs2) = true)
include hl

theorem exec_modinv_zero (hn : s.operand rs2 = 0) :
    ∃ t, exec (.modinv rd rs1 rs2) s = .next t ∧ FailedWith .invalidParam s t :=
  exec_of_err _ s .invalidParam hl (by rw [resultOf, hn, modinvResult_zero]) (by decide)

theorem exec_modinv_noInverse (hn : s.operand rs2 ≠ 0) (hg : Nat.gcd (s.operand rs1) (s.operand rs2) ≠ 1) :
    ∃ t, exec (.modinv rd rs1 rs2) s = .next t ∧ FailedWith .noInverse s t :=
  exec_of_err _ s .noInverse hl (modinvResult_noInverse rd _ _ hn hg) (by decide)

/-- A MODINV of coprime values succeeds with the inverse in X[RD], defined. -/
theorem exec_modinv_ok (hi : s.inv = true) (hn : s.operand rs2 ≠ 0)
    (hg : Nat.gcd (s.operand rs1) (s.operand rs2) = 1) :
    ∃ t, exec (.modinv rd rs1 rs2) s = .next t ∧ SucceededWith [rd] false s t
      ∧ t.operandDefined rd = true ∧ t.operand rd = modInverse (s.operand rs1) (s.operand rs2) := by
  obtain ⟨hrd, -, hrs2⟩ := (s.legal_modinv rd rs1 rs2).mp hl
  obtain ⟨t, ht⟩ := exists_exec_eq_next (.modinv rd rs1 rs2) s
  have hr : resultOf s (.modinv rd rs1 rs2) = _ := modinvResult_ok rd _ _ hn hg
  have hlt := (modInverse_lt (s.operand rs1) (s.operand rs2) hn).trans (s.operand_lt_of_inv rs2 hi hrs2)
  exact ⟨t, ht, exec_succeededWith _ s t _ _ _ ht hl hr, exec_single_write _ s t rd _ _ _ ht hi hl hrd hr hlt⟩

end

end Sys2Proof.Machine
end

section
/-!
The statements of the family 42_xgcd: the Bézout triple, XGCD and MODINV.
-/
namespace Sys2Proof.Machine

/-- Settles O41: the recursion's equations, and induction along it. -/
theorem bezoutRecursion : Obligations.BezoutRecursion :=
  ⟨ext_zero_right, ext_step, fun a b => ⟨ext_gcd a b, ext_bezout a b⟩⟩

/-- Settles O42: the first two parts from the two ways the recursion ends. -/
theorem bezoutCoefficientBounds : Obligations.BezoutCoefficientBounds := by
  refine ⟨fun a b ha hb => ?_, fun a b h => ?_, ext_le_max⟩
  · have hpos : 0 < 2 * Nat.gcd a b := Nat.mul_pos two_pos (Nat.gcd_pos_of_pos_right a hb)
    rcases ext_coeffs_cases a b hb with ⟨hs, ht⟩ | ⟨hs, ht⟩
    · simp [hs, ht]
    · rw [mul_comm, ← Nat.le_div_iff_mul_le hpos] at hs ht
      exact ⟨le_max_of_le_right hs, le_max_of_le_right ht⟩
  · rcases Nat.eq_zero_or_pos b with rfl | hb
    · exact .inl (ext_zero_right a)
    · obtain rfl : a = 0 := h.resolve_right hb.ne'
      exact .inr (.inl (ext_of_dvd 0 b hb (dvd_zero b)))

/-- Settles O43: the three values from the writes of the result, which fit by R122, the rest from the frame of a command's
end. (`xgcdResult` is the model's own `execute`, hence the suffix.) -/
theorem xgcdResult_holds : Obligations.XgcdResult := by
  refine ⟨fun rd rs1 rs2 rd2 rd3 => ⟨decode_encode (.xgcd rd rs1 rs2 rd2 rd3), rfl⟩,
    fun s rd rs1 rs2 rd2 rd3 hi hrd h1 h2 hrd2 hrd3 hne12 hne13 hne23 => ?_,
    fun s rd rs1 rs2 rd2 rd3 hno => exec_of_not_legal _ s fun hl => hno ((s.legal_xgcd rd rs1 rs2 rd2 rd3).mp hl)⟩
  have hl := (s.legal_xgcd rd rs1 rs2 rd2 rd3).mpr ⟨hrd, h1, h2, hrd2, hrd3, hne12, hne13, hne23⟩
  obtain ⟨t, ht⟩ := exists_exec_eq_next (.xgcd rd rs1 rs2 rd2 rd3) s
  obtain ⟨⟨hdef, hg⟩, ⟨hdef2, hs⟩, hdef3, htabs⟩ := exec_xgcd_operands s t rd rs1 rs2 rd2 rd3 ht hl hi
  have hsgn := exec_xgcd_xsgn s t rd rs1 rs2 rd2 rd3 ht hl
  refine ⟨t, ht, exec_succeededWith _ s t _ _ _ ht hl rfl, hdef, hdef2, hdef3, hg, hs, htabs, ?_, ?_⟩ <;>
    simp [hsgn, bezoutSigns]

/-- Settles O44: sign and magnitude make up each coefficient again, so that it is the identity of R120. -/
theorem xgcdBezoutIdentity : Obligations.XgcdBezoutIdentity := by
  intro s t rd rs1 rs2 rd2 rd3 hi hrd h1 h2 hrd2 hrd3 hne12 hne13 hne23 ht
  have hl := (s.legal_xgcd rd rs1 rs2 rd2 rd3).mpr ⟨hrd, h1, h2, hrd2, hrd3, hne12, hne13, hne23⟩
  obtain ⟨⟨-, hg⟩, ⟨-, hs⟩, -, htabs⟩ := exec_xgcd_operands s t rd rs1 rs2 rd2 rd3 ht hl hi
  rw [exec_xgcd_xsgn s t rd rs1 rs2 rd2 rd3 ht hl, hg, hs, htabs]
  simp only [bezoutSigns, neg_one_pow_sign_mul_natAbs]
  exact ⟨ext_bezout _ _, ext_gcd _ _⟩

/-- Settles O46: X[RD] is the floor-mod of the first coefficient, which the Bézout identity makes an inverse.
(`modinvResult` is the model's own `execute`, hence the suffix.) -/
theorem modinvResult_holds : Obligations.ModinvResult := by
  refine ⟨fun rd rs1 rs2 => ⟨decode_encode (.modinv rd rs1 rs2), rfl⟩, fun s rd rs1 rs2 hi hrd h1 h2 hn hg => ?_,
    fun s rd rs1 rs2 hrd h1 h2 => exec_modinv_zero s rd rs1 rs2 ((s.legal_modinv rd rs1 rs2).mpr ⟨hrd, h1, h2⟩),
    fun s rd rs1 rs2 hrd h1 h2 => exec_modinv_noInverse s rd rs1 rs2 ((s.legal_modinv rd rs1 rs2).mpr ⟨hrd, h1, h2⟩),
    fun s rd rs1 rs2 hno => exec_of_not_legal _ s fun hl => hno ((s.legal_modinv rd rs1 rs2).mp hl)⟩
  have hl := (s.legal_modinv rd rs1 rs2).mpr ⟨hrd, h1, h2⟩
  obtain ⟨t, ht, hsucc, hdef, hval⟩ := exec_modinv_ok s rd rs1 rs2 hl hi hn hg
  refine ⟨t, ht, hsucc, exec_xsgn _ s t ht (by simp), hdef, ?_⟩
  rw [hval]
  exact ⟨modInverse_lt _ _ hn, mul_modInverse_modEq _ _ hn hg, fun x => eq_modInverse _ _ x hn hg,
    modInverse_cast _ _ hn⟩

/-- Settles O47: each corner is the ending that its gcd selects; the examples by evaluation. -/
theorem modinvCornerCases : Obligations.ModinvCornerCases := by
  refine ⟨fun s t rd rs1 rs2 hi hrd h1 h2 ht => ?_, fun rd a n hn _ => (modinvResult_mod rd a n hn).symm,
    fun rd => ⟨?_, modinvResult_noInverse rd 6 9 (by decide) (by decide), modinvResult_zero rd 1⟩⟩
  · have hl := (s.legal_modinv rd rs1 rs2).mpr ⟨hrd, h1, h2⟩
    have hok : s.operand rs2 ≠ 0 → Nat.gcd (s.operand rs1) (s.operand rs2) = 1 →
        t.status.errcode = .ok ∧ t.operand rd = modInverse (s.operand rs1) (s.operand rs2) := fun hn hg => by
      obtain ⟨u, hu, ⟨hst, -⟩, -, hval⟩ := exec_modinv_ok s rd rs1 rs2 hl hi hn hg
      obtain rfl := exec_next_unique _ s u t hu ht
      exact ⟨congrArg Status.errcode hst, hval⟩
    have hno : s.operand rs2 ≠ 0 → Nat.gcd (s.operand rs1) (s.operand rs2) ≠ 1 →
        t.status.errcode = .noInverse ∧ t.reg rd.toNat = s.reg rd.toNat := fun hn hg => by
      obtain ⟨u, hu, hst, hx, -⟩ := exec_modinv_noInverse s rd rs1 rs2 hl hn hg
      obtain rfl := exec_next_unique _ s u t hu ht
      exact ⟨congrArg Status.errcode hst, by rw [State.reg, hx, State.reg]⟩
    refine ⟨fun hn => ?_, fun ha hn => ?_, fun ha hn => ?_, fun hn hg => hno hn hg.ne', fun hn => ?_⟩
    · obtain ⟨hst, hval⟩ := hok (by omega) (by rw [hn, Nat.gcd_one_right])
      have hlt := modInverse_lt (s.operand rs1) (s.operand rs2) (by omega)
      exact ⟨by omega, hst⟩
    · exact (hno (by omega) (by rw [ha, Nat.gcd_zero_left]; omega)).1
    · have hg : Nat.gcd 1 (s.operand rs2) = 1 := Nat.gcd_one_left _
      have hinv := mul_modInverse_modEq 1 (s.operand rs2) hn hg
      rw [one_mul, Nat.ModEq, Nat.mod_eq_of_lt (modInverse_lt 1 _ hn)] at hinv
      rw [(hok hn (ha ▸ hg)).2, ha, hinv]
    · obtain ⟨u, hu, hst, -⟩ := exec_modinv_zero s rd rs1 rs2 hl hn
      obtain rfl := exec_next_unique _ s u t hu ht
      exact congrArg Status.errcode hst
  · rw [modinvResult_ok rd 65537 3120 (by decide) (by decide)]
    exact congrArg (fun v => CmdResult.ok [(rd, v)] false none) (by decide)

/-- Settles O45: a second argument that divides the first ends the recursion, a smaller first argument is swapped. -/
theorem xgcdCornerCases : Obligations.XgcdCornerCases :=
  ⟨ext_zero_right 0, fun a _ => ext_zero_right a, fun b hb => ext_of_dvd 0 b hb (dvd_zero b),
    fun a ha => ext_of_dvd a a ha dvd_rfl, ext_of_lt, by decide, by decide⟩

end Sys2Proof.Machine
end

section
/-!
What trial division (R141) and the Miller–Rabin round (R144) say of a number: the strong-probable-prime condition, and that
a prime meets it.
-/
namespace Sys2Proof.Machine

/-! ### Trial division (R140, R141) -/

/-- The table of the reference configuration (R140). -/
theorem smallPrimes_reference : smallPrimes 256 =
    [2, 3, 5, 7, 11, 13, 17, 19, 23, 29, 31, 37, 41, 43, 47, 53, 59, 61]
      ++ [67, 71, 73, 79, 83, 89, 97, 101, 103, 107, 109, 113, 127, 131, 137, 139, 149, 151]
      ++ [157, 163, 167, 173, 179, 181, 191, 193, 197, 199, 211, 223, 227, 229, 233, 239, 241, 251] := by
  decide +kernel

theorem hasSmallFactor_eq_false_iff (limit n : Nat) :
    hasSmallFactor limit n = false ↔ ∀ p, p < limit → p.Prime → n % p ≠ 0 := by
  simp [← Bool.not_eq_true, hasSmallFactor_iff, Nat.dvd_iff_mod_eq_zero]

/-- R141 as a condition on n. -/
theorem trialDivision_iff (limit n : Nat) : trialDivision limit n = true ↔
    2 ≤ n ∧ ((n < limit ∧ n.Prime) ∨ ∀ p, p < limit → p.Prime → n % p ≠ 0) := by
  rw [← inSmallPrimes_iff, ← hasSmallFactor_eq_false_iff]
  unfold trialDivision
  split_ifs with hn hin hfactor
  · simp [hn]
  · simp [hin, not_lt.mp hn]
  · simp [hin, hfactor]
  · simp [hfactor, not_lt.mp hn]

/-- A prime is divided by no smaller prime. -/
theorem trialDivision_of_prime (limit n : Nat) (hn : n.Prime) : trialDivision limit n = true := by
  refine (trialDivision_iff limit n).mpr ⟨hn.two_le, or_iff_not_imp_left.mpr fun hout p hp hprime hmod => hout ?_⟩
  have hpn : p = n := (Nat.prime_dvd_prime_iff_eq hprime hn).mp (Nat.dvd_of_mod_eq_zero hmod)
  exact ⟨hpn ▸ hp, hn⟩

/-- The least prime factor of a composite below limit² is below the limit. -/
theorem prime_of_trialDivision (limit n : Nat) (hlt : n < limit ^ 2) (h : trialDivision limit n = true) : n.Prime := by
  obtain ⟨hn, hin | hnone⟩ := (trialDivision_iff limit n).mp h
  · exact hin.2
  · by_contra hcomp
    have hfac : n.minFac < limit := lt_of_pow_lt_pow_left₀ 2 (Nat.zero_le limit)
      ((Nat.minFac_sq_le_self (by omega) hcomp).trans_lt hlt)
    exact hnone n.minFac hfac (Nat.minFac_prime (by omega)) (Nat.mod_eq_zero_of_dvd n.minFac_dvd)

/-! ### The Miller–Rabin round (R144) -/

/-- n passes the strong-probable-prime test to the base a, with n − 1 = 2^k·d. -/
def StrongProbablePrime (n a k d : Nat) : Prop :=
  a ^ d % n = 1 ∨ ∃ r, r < k ∧ a ^ (2 ^ r * d) % n = n - 1

/-- The squarings start at r = 0, which the round checks beside a^d = 1, and end at r = k − 1. -/
theorem millerRabin_iff_strongProbablePrime (n a : Nat) (hn : 2 ≤ n) (hodd : n % 2 = 1) :
    ∃ k d, n - 1 = 2 ^ k * d ∧ d % 2 = 1 ∧ (millerRabin n a = true ↔ StrongProbablePrime n a k d) := by
  obtain ⟨hsplit, hd⟩ := splitTwos_eq (n - 1) (by omega)
  refine ⟨_, _, hsplit, hd, ?_⟩
  revert hsplit hd
  unfold millerRabin
  generalize splitTwos (n - 1) (n - 1) = kd
  obtain ⟨k, d⟩ := kd
  intro hsplit hd
  have hk : k ≠ 0 := by
    rintro rfl
    simp only [pow_zero, one_mul] at hsplit hd
    omega
  have hsq : ∀ r, (a ^ d % n) ^ 2 ^ r % n = a ^ (2 ^ r * d) % n := fun r => by
    rw [← Nat.pow_mod, ← pow_mul, mul_comm]
  simp only [powMod_eq, StrongProbablePrime]
  split_ifs with hfirst
  · refine iff_of_true rfl (hfirst.imp_right fun h0 => ⟨0, Nat.pos_of_ne_zero hk, ?_⟩)
    rwa [pow_zero, one_mul]
  · obtain ⟨hone, hneg⟩ := not_or.mp hfirst
    simp only [millerRabinSquares_iff, hsq, hone, false_or]
    refine exists_congr fun r => ⟨fun ⟨_, hr, h⟩ => ⟨by omega, h⟩, fun ⟨hr, h⟩ => ⟨Nat.pos_of_ne_zero ?_, by omega, h⟩⟩
    rintro rfl
    exact hneg (by rwa [pow_zero, one_mul] at h)

/-- A 2^k-th root of 1 in a domain is 1, or one of its squarings is −1: each square root of 1 is 1 or −1. -/
theorem eq_one_or_exists_sq_pow_eq_neg_one {R : Type} [Ring R] [NoZeroDivisors R] (x : R) (k : Nat) (h : x ^ 2 ^ k = 1) :
    x = 1 ∨ ∃ r, r < k ∧ x ^ 2 ^ r = -1 := by
  induction k with
  | zero => exact .inl (by simpa using h)
  | succ k ih =>
    rw [pow_succ, pow_mul, sq_eq_one_iff] at h
    rcases h with h | h
    · exact (ih h).imp_right fun ⟨r, hr, e⟩ => ⟨r, by omega, e⟩
    · exact .inr ⟨k, by omega, h⟩

/-- Fermat's little theorem gives (a^d)^(2^k) = 1, from which the roots are taken. -/
theorem strongProbablePrime_of_prime (n a k d : Nat) (hn : n.Prime) (ha : ¬ n ∣ a) (hsplit : n - 1 = 2 ^ k * d) :
    StrongProbablePrime n a k d := by
  have : Fact n.Prime := ⟨hn⟩
  have hfermat : ((a : ZMod n) ^ d) ^ 2 ^ k = 1 := by
    rw [← pow_mul, mul_comm, ← hsplit]
    exact ZMod.pow_card_sub_one_eq_one fun h0 => ha ((ZMod.natCast_eq_zero_iff a n).mp h0)
  rcases eq_one_or_exists_sq_pow_eq_neg_one _ k hfermat with h | ⟨r, hr, h⟩
  · have hmod := (ZMod.natCast_eq_natCast_iff' (a ^ d) 1 n).mp (by push_cast; exact h)
    exact .inl (hmod.trans (Nat.mod_eq_of_lt hn.one_lt))
  · have hneg : ((a ^ (2 ^ r * d) : Nat) : ZMod n) = ((n - 1 : Nat) : ZMod n) := by
      rw [Nat.cast_sub hn.one_le, ZMod.natCast_self, Nat.cast_one, zero_sub, ← h, mul_comm, pow_mul]
      push_cast
      rfl
    have hmod := (ZMod.natCast_eq_natCast_iff' _ _ n).mp hneg
    exact .inr ⟨r, hr, hmod.trans (Nat.mod_eq_of_lt (Nat.sub_one_lt hn.ne_zero))⟩

theorem millerRabin_of_prime (n a : Nat) (hn : n.Prime) (h5 : 5 ≤ n) (h2 : 2 ≤ a) (ha : a ≤ n - 2) :
    millerRabin n a = true := by
  have hodd : n % 2 = 1 := hn.eq_two_or_odd.resolve_left (by omega)
  obtain ⟨k, d, hsplit, -, hiff⟩ := millerRabin_iff_strongProbablePrime n a hn.two_le hodd
  exact hiff.mpr (strongProbablePrime_of_prime n a k d hn (Nat.not_dvd_of_pos_of_lt (by omega) (by omega)) hsplit)

end Sys2Proof.Machine
end

section
/-!
What a draw of a base can give (R147), and what the Miller–Rabin loop of PRIMETEST (R149) does, as an equivalence per
outcome.
-/
namespace Sys2Proof.Machine

/-! ### A draw (R147, R148) -/

theorem drawBase_mem_range (n : Nat) : ∀ tries a (e : EntropySource), (e.drawBase n tries).1 = some a →
    2 ≤ a ∧ a ≤ n - 2 := by
  intro tries
  induction tries with
  | zero => intro a e h; cases h
  | succ tries ih =>
    intro a e h
    simp only [EntropySource.drawBase] at h
    split at h
    · cases h
    · split at h
      · rename_i hrange
        cases h
        exact hrange
      · exact ih a _ h

theorem Draws_mem_range (n tries : Nat) : ∀ bases (e f : EntropySource), Draws n tries e bases f →
    ∀ a ∈ bases, 2 ≤ a ∧ a ≤ n - 2 := by
  intro bases
  induction bases with
  | nil => intro e f _ a ha; cases ha
  | cons b bs ih =>
    rintro e f ⟨hb, hbs⟩ a ha
    rcases List.mem_cons.mp ha with rfl | ha
    · exact drawBase_mem_range n tries a e hb
    · exact ih _ f hbs a ha

/-- The k answers that give the words of v, without ent_err. -/
def answersOf (k v : Nat) : List EntropyAnswer := (wordsOf k v).map fun w => { data := w.val, err := false }

theorem answersOf_succ (k v : Nat) :
    answersOf (k + 1) v = { data := BitVec.ofNat 32 v, err := false } :: answersOf k (v / 2 ^ 32) := rfl

theorem takeWords_ok (k taken : Nat) (w : Word) (rest : List EntropyAnswer) :
    EntropySource.takeWords (k + 1) { answers := { data := w, err := false } :: rest, taken := taken }
      = ((EntropySource.takeWords k { answers := rest, taken := taken }).1.map (fun v => w.toNat + 2 ^ 32 * v),
          (EntropySource.takeWords k { answers := rest, taken := taken }).2) := rfl

theorem takeWords_err (k taken : Nat) (w : Word) (rest : List EntropyAnswer) :
    EntropySource.takeWords (k + 1) { answers := { data := w, err := true } :: rest, taken := taken }
      = (none, { answers := rest, taken := taken }) := rfl

theorem takeWords_answersOf (taken : Nat) : ∀ k v,
    EntropySource.takeWords k { answers := answersOf k v, taken := taken }
      = (some (v % 2 ^ (32 * k)), { answers := [], taken := taken }) := by
  intro k
  induction k with
  | zero => intro v; rw [Nat.mul_zero, pow_zero, Nat.mod_one]; rfl
  | succ k ih =>
    intro v
    rw [answersOf_succ, takeWords_ok, ih, Option.map_some, BitVec.toNat_ofNat,
      show 32 * (k + 1) = 32 + 32 * k by ring, pow_add, Nat.mod_mul]

theorem lt_two_pow_bitlen (v : Nat) : v < 2 ^ bitlen v := by
  unfold bitlen
  split
  · omega
  · exact Nat.lt_log2_self

/-- Every base in range is the first candidate of some source. -/
theorem exists_drawBase_eq_some (n tries taken a : Nat) (ht : 1 ≤ tries) (h2 : 2 ≤ a) (ha : a ≤ n - 2) :
    ∃ answers, (EntropySource.drawBase n tries { answers := answers, taken := taken }).1 = some a := by
  obtain ⟨tries, rfl⟩ := Nat.exists_eq_add_of_le' ht
  have hbits : a < 2 ^ bitlen n := lt_of_le_of_lt (by omega) (lt_two_pow_bitlen n)
  have hwords : a < 2 ^ (32 * ((bitlen n + 31) / 32)) := hbits.trans_le (Nat.pow_le_pow_right (by decide) (by omega))
  refine ⟨answersOf ((bitlen n + 31) / 32) a, ?_⟩
  simp only [EntropySource.drawBase, takeWords_answersOf, Nat.mod_eq_of_lt hwords, Nat.mod_eq_of_lt hbits,
    if_pos (And.intro h2 ha)]

/-- A candidate takes at least one word, so that an answer with ent_err ends the draw. -/
theorem exists_drawBase_eq_none (n tries taken : Nat) (hn : n ≠ 0) :
    ∃ answers, (EntropySource.drawBase n tries { answers := answers, taken := taken }).1 = none := by
  refine ⟨[{ data := 0, err := true }], ?_⟩
  cases tries with
  | zero => rfl
  | succ tries =>
    have hk : (bitlen n + 31) / 32 = (bitlen n - 1) / 32 + 1 := by
      simp only [bitlen, if_neg hn]
      omega
    simp only [EntropySource.drawBase, hk, takeWords_err]

theorem State.busWrite_ctrl_entropy (s : State) (v : Word) : (s.busWrite 0x010 v).env.entropy = s.env.entropy := by
  change (s.writeCtrl v).env.entropy = _
  unfold State.writeCtrl State.abortIf
  split
  · rfl
  · split <;> rfl

/-! ### The Miller–Rabin loop (R149) -/

theorem primeRounds_succ_of_pass (tries n r a : Nat) (e f : EntropySource) (hd : e.drawBase n tries = (some a, f))
    (hm : millerRabin n a = true) : primeRounds tries n (r + 1) e = primeRounds tries n r f := by
  simp [primeRounds, hd, hm]

theorem primeRounds_succ_of_fail (tries n r a : Nat) (e f : EntropySource) (hd : e.drawBase n tries = (some a, f))
    (hm : millerRabin n a = false) : primeRounds tries n (r + 1) e = (some false, f) := by
  simp [primeRounds, hd, hm]

theorem primeRounds_succ_of_none (tries n r : Nat) (e f : EntropySource) (hd : e.drawBase n tries = (none, f)) :
    primeRounds tries n (r + 1) e = (none, f) := by
  simp [primeRounds, hd]

section
variable (tries n r : Nat) (e : EntropySource)

theorem primeRounds_pass_iff : (primeRounds tries n r e).1 = some true ↔
    ∃ bases, Draws n tries e bases (primeRounds tries n r e).2 ∧ bases.length = r
      ∧ ∀ a ∈ bases, millerRabin n a = true := by
  constructor
  · intro h
    rcases primeRounds_cases tries n r e with ⟨bs, hd, hl, hm, -⟩ | ⟨_, _, _, _, _, _, _, _, h'⟩ | ⟨_, _, _, _, _, _, h'⟩
    · exact ⟨bs, hd, hl, hm⟩
    · simp [h'] at h
    · simp [h'] at h
  · rintro ⟨bs, hd, rfl, hm⟩
    rw [primeRounds_of_draws tries n bs _ e _ hd le_rfl hm, Nat.sub_self]
    rfl

theorem primeRounds_fail_iff : (primeRounds tries n r e).1 = some false ↔
    ∃ bases a f, Draws n tries e bases f ∧ bases.length < r ∧ (∀ b ∈ bases, millerRabin n b = true)
      ∧ f.drawBase n tries = (some a, (primeRounds tries n r e).2) ∧ millerRabin n a = false := by
  constructor
  · intro h
    rcases primeRounds_cases tries n r e with ⟨_, _, _, _, h'⟩ | ⟨bs, a, f, hd, hl, hm, ha, hma, -⟩ | ⟨_, _, _, _, _, _, h'⟩
    · simp [h'] at h
    · exact ⟨bs, a, f, hd, hl, hm, ha, hma⟩
    · simp [h'] at h
  · rintro ⟨bs, a, f, hd, hl, hm, ha, hma⟩
    obtain ⟨k, hk⟩ := Nat.exists_eq_add_of_lt (Nat.sub_pos_of_lt hl)
    rw [primeRounds_of_draws tries n bs r e f hd hl.le hm, hk, primeRounds_succ_of_fail tries n _ a f _ ha hma]

theorem primeRounds_none_iff : (primeRounds tries n r e).1 = none ↔
    ∃ bases f, Draws n tries e bases f ∧ bases.length < r ∧ (∀ b ∈ bases, millerRabin n b = true)
      ∧ f.drawBase n tries = (none, (primeRounds tries n r e).2) := by
  constructor
  · intro h
    rcases primeRounds_cases tries n r e with ⟨_, _, _, _, h'⟩ | ⟨_, _, _, _, _, _, _, _, h'⟩ | ⟨bs, f, hd, hl, hm, hf, -⟩
    · simp [h'] at h
    · simp [h'] at h
    · exact ⟨bs, f, hd, hl, hm, hf⟩
  · rintro ⟨bs, f, hd, hl, hm, hf⟩
    obtain ⟨k, hk⟩ := Nat.exists_eq_add_of_lt (Nat.sub_pos_of_lt hl)
    rw [primeRounds_of_draws tries n bs r e f hd hl.le hm, hk, primeRounds_succ_of_none tries n _ f _ hf]

end

/-- The loop never rejects a prime: every base drawn is in range, so that it passes. -/
theorem primeRounds_ne_fail_of_prime (tries n r : Nat) (e : EntropySource) (hn : n.Prime) (h5 : 5 ≤ n) :
    (primeRounds tries n r e).1 ≠ some false := by
  intro h
  obtain ⟨_, a, f, -, -, -, hd, hfail⟩ := (primeRounds_fail_iff tries n r e).mp h
  obtain ⟨h2, ha⟩ := drawBase_mem_range n tries a f (by rw [hd])
  simp [millerRabin_of_prime n a hn h5 h2 ha] at hfail

/-! ### What PRIMETEST decides before any draw (R149) -/

section
variable (p : Params) (cfg : Cfg) (n : Nat)

theorem primeFilter_of_lt_two (h : n < 2) : primeFilter p cfg n = some false := if_pos h

theorem primeFilter_of_two_or_three (h : n = 2 ∨ n = 3) : primeFilter p cfg n = some true := by
  rcases h with rfl | rfl <;> rfl

theorem primeFilter_of_even (h4 : 4 ≤ n) (h : n % 2 = 0) : primeFilter p cfg n = some false := by
  rw [primeFilter, if_neg (by omega), if_neg (by omega), if_pos h]

/-- From 5 on, an odd number is decided by trial division, if at all. -/
theorem primeFilter_of_odd (h5 : 5 ≤ n) (hodd : n % 2 = 1) : primeFilter p cfg n =
    if cfg.tdEn && inSmallPrimes p.tdLimit n then some true
    else if cfg.tdEn && hasSmallFactor p.tdLimit n then some false
    else none := by
  rw [primeFilter, if_neg (by omega), if_neg (by omega), if_neg (by omega)]

theorem primeFilter_of_small_prime (h5 : 5 ≤ n) (hodd : n % 2 = 1) (ht : cfg.tdEn = true) (hlt : n < p.tdLimit)
    (hn : n.Prime) : primeFilter p cfg n = some true := by
  simp [primeFilter_of_odd p cfg n h5 hodd, ht, (inSmallPrimes_iff p.tdLimit n).mpr ⟨hlt, hn⟩]

theorem primeFilter_of_small_factor (h5 : 5 ≤ n) (hodd : n % 2 = 1) (ht : cfg.tdEn = true)
    (hout : ¬ (n < p.tdLimit ∧ n.Prime)) (hfac : ∃ q, q < p.tdLimit ∧ q.Prime ∧ q ∣ n) :
    primeFilter p cfg n = some false := by
  rw [← inSmallPrimes_iff] at hout
  simp [primeFilter_of_odd p cfg n h5 hodd, ht, hout, (hasSmallFactor_iff p.tdLimit n).mpr hfac]

/-- A number without a prime factor below the limit is no prime below the limit either. -/
theorem primeFilter_of_no_small_factor (h5 : 5 ≤ n) (hodd : n % 2 = 1)
    (hno : cfg.tdEn = true → ∀ q, q.Prime → q < p.tdLimit → n % q ≠ 0) : primeFilter p cfg n = none := by
  rw [primeFilter_of_odd p cfg n h5 hodd]
  cases ht : cfg.tdEn with
  | false => rfl
  | true =>
    have hfac : hasSmallFactor p.tdLimit n = false :=
      (hasSmallFactor_eq_false_iff p.tdLimit n).mpr fun q hlt hq => hno ht q hq hlt
    have hout : ¬ inSmallPrimes p.tdLimit n = true := by
      rw [inSmallPrimes_iff]
      exact fun ⟨hlt, hn⟩ => hno ht n hn hlt n.mod_self
    simp [hfac, hout]

theorem primeTest_of_filter (e : EntropySource) (b : Bool) (h : primeFilter p cfg n = some b) :
    primeTest p cfg n e = (some b, e) := by
  rw [primeTest, h]

theorem primeTest_of_filter_none (e : EntropySource) (h : primeFilter p cfg n = none) :
    primeTest p cfg n e = primeRounds p.entMaxTries n cfg.mrRounds.toNat e := by
  rw [primeTest, h]

/-- PRIMETEST never rejects a prime (R150). -/
theorem primeTest_ne_reject_of_prime (e : EntropySource) (hn : n.Prime) : (primeTest p cfg n e).1 ≠ some false := by
  by_cases hsmall : n = 2 ∨ n = 3
  · simp [primeTest_of_filter p cfg n e true (primeFilter_of_two_or_three p cfg n hsmall)]
  · have hodd : n % 2 = 1 := hn.eq_two_or_odd.resolve_left (by omega)
    have h5 : 5 ≤ n := by
      have := hn.two_le
      omega
    by_cases htab : cfg.tdEn = true ∧ n < p.tdLimit
    · simp [primeTest_of_filter p cfg n e true (primeFilter_of_small_prime p cfg n h5 hodd htab.1 htab.2 hn)]
    · have hnone : primeFilter p cfg n = none := primeFilter_of_no_small_factor p cfg n h5 hodd fun ht q hq hlt hmod =>
        htab ⟨ht, (Nat.prime_dvd_prime_iff_eq hq hn).mp (Nat.dvd_of_mod_eq_zero hmod) ▸ hlt⟩
      rw [primeTest_of_filter_none p cfg n e hnone]
      exact primeRounds_ne_fail_of_prime _ n _ e hn h5

end

end Sys2Proof.Machine
end

section
/-!
How TDIV (R142), MRROUND (R145) and PRIMETEST (R152) end, from the result of their `execute`.
-/
namespace Sys2Proof.Machine

theorem State.legal_tdiv (s : State) (rs1 : RegIdx) : s.legal (.tdiv rs1) = true ↔ s.hasReg rs1 := by
  simp [State.legal, Instr.wellFormed]

theorem State.legal_mrround (s : State) (rs1 rs2 : RegIdx) :
    s.legal (.mrround rs1 rs2) = true ↔ s.hasReg rs1 ∧ s.hasReg rs2 := by
  simp [State.legal, Instr.wellFormed]

theorem State.legal_primetest (s : State) (rs1 : RegIdx) : s.legal (.primetest rs1) = true ↔ s.hasReg rs1 := by
  simp [State.legal, Instr.wellFormed]

theorem resultOf_mrround_err (s : State) (rs1 rs2 : RegIdx)
    (h : s.operand rs1 < 5 ∨ s.operand rs1 % 2 = 0 ∨ s.operand rs2 < 2 ∨ s.operand rs1 - 2 < s.operand rs2) :
    resultOf s (.mrround rs1 rs2) = .err .invalidParam := if_pos h

theorem resultOf_mrround (s : State) (rs1 rs2 : RegIdx)
    (h : ¬ (s.operand rs1 < 5 ∨ s.operand rs1 % 2 = 0 ∨ s.operand rs2 < 2 ∨ s.operand rs1 - 2 < s.operand rs2)) :
    resultOf s (.mrround rs1 rs2) = .ok [] (millerRabin (s.operand rs1) (s.operand rs2)) none := if_neg h

/-! ### PRIMETEST (R152) -/

/-- The answer of primetest(n) on a state, with the entropy source it leaves. -/
def State.primeAnswer (s : State) (rs1 : RegIdx) : Option Bool × EntropySource :=
  primeTest s.params s.cfg (s.operand rs1) s.env.entropy

theorem resultOf_primetest (s : State) (rs1 : RegIdx) :
    resultOf s (.primetest rs1) = primetestResult (s.primeAnswer rs1).1 := rfl

section
variable (s t : State) (rs1 : RegIdx) (h : exec (.primetest rs1) s = .next t) (hreg : s.hasReg rs1)
include h hreg

/-- A legal PRIMETEST leaves the entropy source where its draws have left it. -/
theorem exec_primetest_entropy : t.env.entropy = (s.primeAnswer rs1).2 := by
  rw [exec_eq] at h
  cases h
  rw [(State.finish_agents _ _ _).2, afterDraws, State.useEntropy, if_pos ((s.legal_primetest rs1).mpr hreg)]
  rfl

/-- A legal PRIMETEST ends with OK and RES = b iff primetest(n) answers b. -/
theorem exec_primetest_succeededWith_iff (b : Bool) :
    SucceededWith [] b s t ↔ (s.primeAnswer rs1).1 = some b := by
  have hl := (s.legal_primetest rs1).mpr hreg
  constructor
  · rintro ⟨hst, -, -, -⟩
    obtain ⟨hcode, hres⟩ := exec_ok _ s t h (by rw [hst])
    rw [resultOf_primetest] at hcode hres
    rw [primetestResult_flag _ hcode, ← hres, hst]
  · intro ha
    exact exec_succeededWith _ s t [] b none h hl (by rw [resultOf_primetest, ha, primetestResult])

/-- A legal PRIMETEST ends with ENTROPY iff a draw of primetest(n) gives none (R148). -/
theorem exec_primetest_failedWith_iff : FailedWith .entropy s t ↔ (s.primeAnswer rs1).1 = none := by
  have hst := exec_status _ s t h
  rw [if_pos ((s.legal_primetest rs1).mpr hreg), resultOf_primetest] at hst
  cases ha : (s.primeAnswer rs1).1 with
  | none =>
    rw [ha] at hst
    exact iff_of_true (exec_failedWith _ s t .entropy h (by decide) hst) rfl
  | some b =>
    refine iff_of_false (fun ⟨hfail, _⟩ => ?_) (by simp)
    simp [ha, CompletedWith, Status.completed, primetestResult, CmdResult.code, hst] at hfail

end

/-- Where primetest(n) decides before any draw, PRIMETEST ends with OK and takes no entropy word. -/
theorem exec_primetest_of_filter (s : State) (rs1 : RegIdx) (b : Bool) (hreg : s.hasReg rs1)
    (hb : primeFilter s.params s.cfg (s.operand rs1) = some b) :
    ∃ t, exec (.primetest rs1) s = .next t ∧ t.env.entropy = s.env.entropy ∧ SucceededWith [] b s t := by
  obtain ⟨t, ht⟩ := exists_exec_eq_next (.primetest rs1) s
  have ha : s.primeAnswer rs1 = (some b, s.env.entropy) := primeTest_of_filter _ _ _ _ b hb
  exact ⟨t, ht, by rw [exec_primetest_entropy s t rs1 ht hreg, ha],
    (exec_primetest_succeededWith_iff s t rs1 ht hreg b).mpr (by rw [ha])⟩

end Sys2Proof.Machine
end

section
/-!
The statements of the family 43_primality: the small-prime table, trial division, the Miller–Rabin round, and PRIMETEST.
-/
namespace Sys2Proof.Machine

/-- Settles O48: the table is a filter of the numbers below the limit, by primality; the 54 entries by evaluation. -/
theorem smallPrimeTable : Obligations.SmallPrimeTable := by
  refine ⟨fun limit p => ?_, fun limit => List.pairwise_lt_range.filter _, fun limit h => ?_, smallPrimes_reference, ?_⟩
  · rw [mem_smallPrimes]
    exact ⟨fun ⟨hlt, hp⟩ => ⟨hp, hp.two_le, hlt⟩, fun ⟨hp, _, hlt⟩ => ⟨hlt, hp⟩⟩
  · exact (mem_smallPrimes limit 2).mpr ⟨h, Nat.prime_two⟩
  · rw [smallPrimes_reference]
    rfl

/-- Settles O49: the predicate by its branches; a composite below limit² has a prime factor below the limit. -/
theorem trialDivisionMeaning : Obligations.TrialDivisionMeaning :=
  ⟨trialDivision_iff, fun limit n h hn => by simp [trialDivision_of_prime limit n hn] at h, prime_of_trialDivision⟩

/-- Settles O50: `execute` answers OK with the predicate as its flag, whatever n and CFG are. -/
theorem tdivResult : Obligations.TdivResult := by
  refine ⟨fun rs1 => ⟨decode_encode (.tdiv rs1), rfl⟩, fun s rs1 h1 => ?_,
    fun s rs1 hno => exec_of_not_legal _ s fun hl => hno ((s.legal_tdiv rs1).mp hl), ?_⟩
  · obtain ⟨t, ht⟩ := exists_exec_eq_next (.tdiv rs1) s
    have hsucc := exec_succeededWith _ s t _ _ _ ht ((s.legal_tdiv rs1).mpr h1) rfl
    have hres : t.status.res = trialDivision s.params.tdLimit (s.operand rs1) := congrArg Status.res hsucc.1
    exact ⟨t, ht, exec_xsgn _ s t ht (by simp), hsucc, by rw [hres, trialDivision_iff]⟩
  · simp only [List.map, trialDivision, inSmallPrimes, hasSmallFactor, smallPrimes_reference]
    decide

/-- Settles O51: the round's first check and its squarings together are the strong-probable-prime test.
(`mrroundResult` is the model's own `execute`, hence the suffix.) -/
theorem mrroundResult_holds : Obligations.MrroundResult := by
  refine ⟨fun rs1 rs2 => ⟨decode_encode (.mrround rs1 rs2), rfl⟩, fun s rs1 rs2 h1 h2 h5 hodd hlo hhi => ?_,
    fun s rs1 rs2 h1 h2 hbad => ?_,
    fun s rs1 rs2 hno => exec_of_not_legal _ s fun hl => hno ((s.legal_mrround rs1 rs2).mp hl)⟩
  · have hl := (s.legal_mrround rs1 rs2).mpr ⟨h1, h2⟩
    obtain ⟨t, ht⟩ := exists_exec_eq_next (.mrround rs1 rs2) s
    have hsucc := exec_succeededWith _ s t _ _ _ ht hl (resultOf_mrround s rs1 rs2 (by omega))
    have hres : t.status.res = millerRabin (s.operand rs1) (s.operand rs2) := congrArg Status.res hsucc.1
    obtain ⟨k, d, hsplit, hd, hiff⟩ := millerRabin_iff_strongProbablePrime _ (s.operand rs2) (by omega) hodd
    exact ⟨t, ht, exec_xsgn _ s t ht (by simp), hsucc, k, d, hsplit, hd, hres ▸ hiff⟩
  · have hl := (s.legal_mrround rs1 rs2).mpr ⟨h1, h2⟩
    exact exec_of_err _ s .invalidParam hl (resultOf_mrround_err s rs1 rs2 hbad) (by decide)

/-- Settles O52: Fermat's little theorem, and that 1 has no square roots but 1 and −1 modulo a prime. -/
theorem millerRabinPassesPrimes : Obligations.MillerRabinPassesPrimes := millerRabin_of_prime

/-- Settles O53: the range is checked before a candidate is accepted; a source that gives the base's own words draws it, and
one that fails at once draws none. -/
theorem drawnBasesAreInRange : Obligations.DrawnBasesAreInRange :=
  ⟨fun n tries a e => drawBase_mem_range n tries a e,
    fun n tries taken a _ ht h2 ha => exists_drawBase_eq_some n tries taken a ht h2 ha,
    fun n tries taken h5 => exists_drawBase_eq_none n tries taken (by omega), State.busWrite_ctrl_entropy⟩

/-- Settles O54: each case is a branch of the filter. -/
theorem primetestDecidesBeforeDraws : Obligations.PrimetestDecidesBeforeDraws := by
  refine ⟨fun rs1 => ⟨decode_encode (.primetest rs1), rfl⟩, fun s rs1 b h1 hcase => ?_,
    fun s rs1 hno => exec_of_not_legal _ s fun hl => hno ((s.legal_primetest rs1).mp hl)⟩
  have hfilter : primeFilter s.params s.cfg (s.operand rs1) = some b := by
    rcases hcase with ⟨hlt, rfl⟩ | ⟨hsmall, rfl⟩ | ⟨h4, heven, rfl⟩ | ⟨h5, hodd, ht, hn, hlt, rfl⟩
      | ⟨h5, hodd, ht, hout, ⟨q, hq, hlt, hmod⟩, rfl⟩
    · exact primeFilter_of_lt_two _ _ _ hlt
    · exact primeFilter_of_two_or_three _ _ _ hsmall
    · exact primeFilter_of_even _ _ _ h4 heven
    · exact primeFilter_of_small_prime _ _ _ h5 hodd ht hlt hn
    · exact primeFilter_of_small_factor _ _ _ h5 hodd ht (fun ⟨hn, hp⟩ => hout ⟨hp, hn⟩)
        ⟨q, hlt, hq, Nat.dvd_of_mod_eq_zero hmod⟩
  obtain ⟨t, ht, hent, hsucc⟩ := exec_primetest_of_filter s rs1 b h1 hfilter
  exact ⟨t, ht, exec_xsgn _ s t ht (by simp), hent, hsucc⟩

/-- Settles O55: the end of the command tells the answer of the loop, and each answer of the loop tells its draws. -/
theorem primetestRounds : Obligations.PrimetestRounds := by
  intro s rs1 h1 h5 hodd hno
  obtain ⟨t, ht⟩ := exists_exec_eq_next (.primetest rs1) s
  have hrounds : s.primeAnswer rs1 = primeRounds s.params.entMaxTries (s.operand rs1) s.cfg.mrRounds.toNat s.env.entropy :=
    primeTest_of_filter_none _ _ _ _ (primeFilter_of_no_small_factor _ _ _ h5 hodd hno)
  have hsucc := exec_primetest_succeededWith_iff s t rs1 ht h1
  have hfail := exec_primetest_failedWith_iff s t rs1 ht h1
  have houtcome : FailedWith .entropy s t ∨ SucceededWith [] true s t ∨ SucceededWith [] false s t := by
    rw [hfail, hsucc, hsucc]
    rcases (s.primeAnswer rs1).1 with _ | _ | _ <;> simp
  rw [hrounds] at hsucc hfail
  refine ⟨t, ht, exec_xsgn _ s t ht (by simp), houtcome, ?_, ?_, ?_, fun bases e => Draws_mem_range _ _ bases _ e⟩
  all_goals rw [exec_primetest_entropy s t rs1 ht h1, hrounds]
  · exact (hsucc true).trans (primeRounds_pass_iff _ _ _ _)
  · exact (hsucc false).trans (primeRounds_fail_iff _ _ _ _)
  · exact hfail.trans (primeRounds_none_iff _ _ _ _)

/-- Settles O56: no branch rejects a prime; a composite that the filter meets is rejected before any draw. -/
theorem primetestSoundOnPrimes : Obligations.PrimetestSoundOnPrimes := by
  refine ⟨fun s t rs1 h1 hn ht hok => ?_, fun s rs1 h1 hn hcase => ?_⟩
  · obtain ⟨hcode, hres⟩ := exec_ok _ s t ht hok
    have ha : (s.primeAnswer rs1).1 = some t.status.res := hres ▸ primetestResult_flag _ hcode
    by_contra hfalse
    exact primeTest_ne_reject_of_prime _ _ _ _ hn (ha.trans (congrArg some (Bool.eq_false_of_not_eq_true hfalse)))
  · have hfilter : primeFilter s.params s.cfg (s.operand rs1) = some false := by
      have hne : s.operand rs1 ≠ 2 ∧ s.operand rs1 ≠ 3 :=
        ⟨fun h => hn (h ▸ Nat.prime_two), fun h => hn (h ▸ Nat.prime_three)⟩
      by_cases hlt : s.operand rs1 < 2
      · exact primeFilter_of_lt_two _ _ _ hlt
      · by_cases heven : s.operand rs1 % 2 = 0
        · exact primeFilter_of_even _ _ _ (by omega) heven
        · obtain ⟨ht, q, hq, hqlt, hdvd⟩ := (hcase.resolve_left hlt).resolve_left heven
          exact primeFilter_of_small_factor _ _ _ (by omega) (by omega) ht (fun hp => hn hp.2) ⟨q, hqlt, hq, hdvd⟩
    obtain ⟨t, ht, -, hst, -⟩ := exec_primetest_of_filter s rs1 false h1 hfilter
    exact ⟨t, ht, by rw [hst], by rw [hst]⟩

end Sys2Proof.Machine
end

section
/-!
The control command (R170): what the decoder answers for a word by its opcode's row, and what the end of a NOP leaves.
-/
namespace Sys2Proof

/-- A word whose opcode is not reserved is that row's command where it matches the row, and fails check 2 of R88 elsewhere. -/
theorem decode_of_fieldOpc (c : Opcode) (w : Word) (ho : fieldOpc w = c.number) :
    decode w = if c.matchesWord w then .ok (c.build w) else .error .unusedField := by
  rw [decode, ho, opcodeOf_number]

end Sys2Proof

namespace Sys2Proof.Machine

/-- NOP is legal on every block and names no register, so its end is the change of STATUS alone. -/
theorem exec_nop (s : State) : exec .nop s = .next (s.setStatus (s.status.completed .ok false)) := by
  have hlegal : s.legal .nop = true := rfl
  rw [exec_eq, State.finish, afterDraws_legal, if_pos hlegal]
  rfl

/-- Settles O36: the decoder accepts the encoder's word alone, and the end of a NOP is a change of STATUS. -/
theorem nopCompletes : Obligations.NopCompletes := by
  obtain ⟨-, hnop⟩ := reservedEncodingsAreIllegal
  refine ⟨(hnop 0).mpr rfl, fun w ho hne => ?_, fun s => ⟨_, exec_nop s, rfl, ?_⟩⟩
  · have hmiss : ¬ Opcode.nop.matchesWord w = true := fun hm =>
      hne ((hnop w).mp ((decode_eq_ok_build_iff .nop w).mpr hm))
    rw [decode_of_fieldOpc .nop w ho, if_neg hmiss]
  · exact Bool.and_true s.ie

end Sys2Proof.Machine
end

section
/-!
Which error a command ends with (R182 to R185): what the operands make each `execute` answer, and the code in STATUS by the
decode checks and that answer.
-/
namespace Sys2Proof.Machine

/-! ### The errors of `execute` -/

section
variable (c : ErrCode) (hc : c ≠ .ok)
include hc

theorem code_ok_eq_iff (ws : List (RegIdx × Nat)) (b : Bool) (g : Option Xsgn) :
    (CmdResult.ok ws b g).code = c ↔ False := iff_false_intro hc.symm

/-- An `execute` with one guard answers its error exactly where the guard holds. -/
theorem code_guarded_eq_iff (p : Prop) [Decidable p] (e : ErrCode) (ws : List (RegIdx × Nat)) (b : Bool)
    (g : Option Xsgn) : (if p then CmdResult.err e else .ok ws b g).code = c ↔ p ∧ c = e := by
  by_cases hp : p
  · simp [hp, CmdResult.code, eq_comm]
  · simp [hp, CmdResult.code, hc.symm]

theorem modinvResult_code_eq_iff (rd : RegIdx) (a n : Nat) : (modinvResult rd a n).code = c ↔
    (n = 0 ∧ c = .invalidParam) ∨ (1 ≤ n ∧ Nat.gcd a n ≠ 1 ∧ c = .noInverse) := by
  rcases Nat.eq_zero_or_pos n with rfl | hn
  · simp [modinvResult_zero, CmdResult.code, eq_comm]
  · by_cases hg : Nat.gcd a n = 1
    · simp [modinvResult_ok rd a n hn.ne' hg, CmdResult.code, hn.ne', hg, hc.symm]
    · simp [modinvResult_noInverse rd a n hn.ne' hg, CmdResult.code, hn.ne', Nat.succ_le_of_lt hn, hg, eq_comm]

theorem primetestResult_code_eq_iff (d : Option Bool) : (primetestResult d).code = c ↔ d = none ∧ c = .entropy := by
  cases d <;> simp [primetestResult, CmdResult.code, hc.symm, eq_comm]

end

/-- `Raises s c i`: the operands of command i on s are those for which the rules name the error c. -/
def Raises (s : State) (c : ErrCode) : Instr → Prop
  | .modmul _ _ _ rs3 | .modexp _ _ _ rs3 => s.operand rs3 = 0 ∧ c = .invalidParam
  | .modinv _ rs1 rs2 =>
      (s.operand rs2 = 0 ∧ c = .invalidParam)
        ∨ (1 ≤ s.operand rs2 ∧ Nat.gcd (s.operand rs1) (s.operand rs2) ≠ 1 ∧ c = .noInverse)
  | .mrround rs1 rs2 =>
      (s.operand rs1 < 5 ∨ s.operand rs1 % 2 = 0 ∨ s.operand rs2 < 2 ∨ s.operand rs1 - 2 < s.operand rs2)
        ∧ c = .invalidParam
  | .primetest rs1 => (s.primeAnswer rs1).1 = none ∧ c = .entropy
  | .nop | .xgcd _ _ _ _ _ | .tdiv _ => False

/-- `execute` answers exactly the errors that the rules name. -/
theorem resultOf_code_eq_iff (i : Instr) (s : State) (c : ErrCode) (hc : c ≠ .ok) :
    (resultOf s i).code = c ↔ Raises s c i := by
  cases i with
  | modmul | modexp | mrround => exact code_guarded_eq_iff c hc _ _ _ _ _
  | modinv rd rs1 rs2 => exact modinvResult_code_eq_iff c hc rd _ _
  | primetest rs1 => exact primetestResult_code_eq_iff c hc _
  | nop | xgcd | tdiv => exact code_ok_eq_iff c hc _ _ _

section
variable (i : Instr) (s : State)

theorem not_raises_illegal : ¬ Raises s .illegal i := by cases i <;> simp [Raises]

theorem raises_invalidParam_iff : Raises s .invalidParam i ↔
    ((∃ rd rs1 rs2 rs3, i = .modmul rd rs1 rs2 rs3 ∧ s.operand rs3 = 0)
      ∨ (∃ rd rs1 rs2 rs3, i = .modexp rd rs1 rs2 rs3 ∧ s.operand rs3 = 0)
      ∨ (∃ rd rs1 rs2, i = .modinv rd rs1 rs2 ∧ s.operand rs2 = 0)
      ∨ ∃ rs1 rs2, i = .mrround rs1 rs2
          ∧ (s.operand rs1 < 5 ∨ s.operand rs1 % 2 = 0 ∨ s.operand rs2 < 2 ∨ s.operand rs1 - 2 < s.operand rs2)) := by
  cases i <;> simp [Raises]

theorem raises_noInverse_iff : Raises s .noInverse i ↔
    ∃ rd rs1 rs2, i = .modinv rd rs1 rs2 ∧ 1 ≤ s.operand rs2 ∧ Nat.gcd (s.operand rs1) (s.operand rs2) ≠ 1 := by
  cases i <;> simp [Raises]

theorem raises_entropy_iff : Raises s .entropy i ↔ ∃ rs1, i = .primetest rs1 ∧ (s.primeAnswer rs1).1 = none := by
  cases i <;> simp [Raises]

end

/-! ### The code in STATUS -/

section
variable (i : Instr) (s t : State) (h : exec i s = .next t)
include h

theorem exec_errcode_of_not_legal (hl : s.legal i = false) : t.status.errcode = .illegal := by
  rw [exec_status i s t h, hl]
  rfl

theorem exec_errcode_eq_iff_raises (hl : s.legal i = true) (c : ErrCode) (hc : c ≠ .ok) :
    t.status.errcode = c ↔ Raises s c i := by
  rw [exec_status i s t h, if_pos hl, Status.completed_errcode, resultOf_code_eq_iff i s c hc]

theorem exec_errcode_eq_illegal_iff : t.status.errcode = .illegal ↔ s.legal i = false := by
  cases hl : s.legal i with
  | false => exact iff_of_true (exec_errcode_of_not_legal i s t h hl) rfl
  | true =>
    rw [exec_errcode_eq_iff_raises i s t h hl .illegal (by decide)]
    exact iff_of_false (not_raises_illegal i s) (by decide)

end

theorem exists_decodeCheck_error_iff (nreg : Nat) (w : Word) :
    (∃ e, decodeCheck nreg w = .error e) ↔ ¬ ∃ i, decodeCheck nreg w = .ok i := by
  cases decodeCheck nreg w <;> simp

/-- The engine's two ways to ILLEGAL are the two halves of decode_check: the word's, and its command's fields'. -/
theorem engineStep_errcode_eq_illegal_iff (s t : State) (h : engineStep s = .next t) :
    t.status.errcode = .illegal ↔ ¬ ∃ i, decodeCheck s.params.nreg s.cmd = .ok i := by
  simp only [decodeCheck_eq_ok_iff]
  rcases engineStep_cases s with ⟨i, hi, e⟩ | ⟨e', he, e⟩
  · rw [exec_errcode_eq_illegal_iff i s t (e ▸ h)]
    simp [hi, State.legal]
  · cases e.symm.trans h
    simp [he, CmdResult.code]

/-! ### Where a base is drawn (R149) -/

/-- The filter of R149 leaves a number to the rounds only if it is odd, from 5 on, and trial division does not decide it. -/
theorem primeFilter_eq_none (p : Params) (cfg : Cfg) (n : Nat) (h : primeFilter p cfg n = none) :
    5 ≤ n ∧ n % 2 = 1 ∧ (cfg.tdEn = true → inSmallPrimes p.tdLimit n = false ∧ hasSmallFactor p.tdLimit n = false) := by
  unfold primeFilter at h
  split_ifs at h with hlt hsmall heven hin hfac
  refine ⟨by omega, by omega, fun ht => ?_⟩
  simpa [ht] using And.intro hin hfac

theorem primeFilter_of_primeAnswer_none (s : State) (rs1 : RegIdx) (h : (s.primeAnswer rs1).1 = none) :
    primeFilter s.params s.cfg (s.operand rs1) = none := by
  cases hf : primeFilter s.params s.cfg (s.operand rs1) with
  | none => rfl
  | some b => simp [State.primeAnswer, primeTest_of_filter _ _ _ _ b hf] at h

end Sys2Proof.Machine
end

section
/-!
What a step does to STATUS and to the interrupt output (R186, R188, R191): the CTRL write by its bits, the end of every engine
step, and each way in which a step can change STATUS.
-/
namespace Sys2Proof.Machine

/-! ### The CTRL write (R30, R186, R211) -/

theorem State.busWrite_ctrl (s : State) (v : Word) : s.busWrite 0x010 v = s.writeCtrl v := rfl

section
variable (s : State) (v : Word)

theorem State.writeCtrl_reset (h2 : v.getLsbD 2 = true) : s.writeCtrl v = s.resetBlock := if_pos h2

theorem State.writeCtrl_abort (h2 : v.getLsbD 2 = false) (h1 : v.getLsbD 1 = true) (hb : s.status.busy = true) :
    s.writeCtrl v = (s.setIe (v.getLsbD 0)).abort := by
  rw [State.writeCtrl, h2, if_neg Bool.false_ne_true, State.abortIf, if_pos]
  exact Bool.and_eq_true_iff.mpr ⟨h1, hb⟩

theorem State.writeCtrl_ie (h2 : v.getLsbD 2 = false) (h : v.getLsbD 1 = false ∨ s.status.busy = false) :
    s.writeCtrl v = s.setIe (v.getLsbD 0) := by
  rw [State.writeCtrl, h2, if_neg Bool.false_ne_true, State.abortIf, if_neg]
  rw [Bool.not_eq_true]
  exact Bool.and_eq_false_iff.mpr h

/-- A CTRL write is a reset, an abort of a running command, or a write of IE. -/
theorem State.writeCtrl_cases :
    s.writeCtrl v = s.resetBlock
      ∨ (s.status.busy = true ∧ s.writeCtrl v = (s.setIe (v.getLsbD 0)).abort)
      ∨ s.writeCtrl v = s.setIe (v.getLsbD 0) := by
  cases h2 : v.getLsbD 2 with
  | true => exact .inl (s.writeCtrl_reset v h2)
  | false =>
    cases h1 : v.getLsbD 1 with
    | false => exact .inr (.inr (s.writeCtrl_ie v h2 (.inl h1)))
    | true =>
      cases hb : s.status.busy with
      | false => exact .inr (.inr (s.writeCtrl_ie v h2 (.inr hb)))
      | true => exact .inr (.inl ⟨rfl, s.writeCtrl_abort v h2 h1 hb⟩)

end

theorem ctrlWord_eq (ie : Bool) : ctrlWord ie = if ie then 1 else 0 := by cases ie <;> rfl

/-! ### The end of an engine step (R86, R191) -/

/-- Every engine step is a completion, and leaves CTRL alone. -/
theorem engineStep_completes (s t : State) (h : engineStep s = .next t) :
    t.ie = s.ie ∧ ∃ code res, t.status = s.status.completed code res := by
  rcases engineStep_cases s with ⟨i, -, e⟩ | ⟨_, -, e⟩
  · obtain ⟨-, hie, -⟩ := exec_control i s t (e ▸ h)
    exact ⟨hie, exec_completes i s t (e ▸ h)⟩
  · cases e.symm.trans h
    exact ⟨rfl, _, _, rfl⟩

/-! ### How STATUS can change -/

theorem target_eq_status (p : Params) (a : Offset) (h : target p a = .status) : a = 0x014 := by
  revert h
  unfold target
  split_ifs <;> simp [*]

/-- What accesses other than a STATUS write, an abort or a reset make of STATUS: they clear DONE at most, and set OVR or
ACCERR. -/
def Status.touched (t : Status) : List Status := [t, t.accessError, t.overrun, t.issued]

theorem Status.touched_keeps (t u : Status) (h : u ∈ t.touched) :
    (t.done = false → u.done = false) ∧ (t.ovr = true → u.ovr = true) ∧ (t.accerr = true → u.accerr = true) := by
  simp only [Status.touched, List.mem_cons, List.not_mem_nil, or_false] at h
  rcases h with rfl | rfl | rfl | rfl <;> simp +contextual

/-- A write that is dropped but for STATUS while BUSY = 1 (R68, R85) touches STATUS where both of its branches do. -/
theorem State.dropped_status_mem_touched (s u : State) (st : Status) (hst : st ∈ s.status.touched)
    (hu : u.status ∈ s.status.touched) :
    (if s.status.busy then s.setStatus st else u).status ∈ s.status.touched := by
  split
  · exact hst
  · exact hu

/-- What a bus write can do to STATUS. -/
theorem State.busWrite_status_cases (s : State) (a : Offset) (v : Word) :
    (s.status.busy = true ∧ ∃ code res, (s.busWrite a v).status = s.status.completed code res)
      ∨ s.busWrite a v = s.resetBlock
      ∨ (a = 0x014 ∧ (s.busWrite a v).status = s.status.writeOneToClear v)
      ∨ (s.busWrite a v).status ∈ s.status.touched := by
  unfold State.busWrite
  cases ht : target s.params a with
  | ctrl =>
    rcases s.writeCtrl_cases v with e | ⟨hb, e⟩ | e
    · exact .inr (.inl e)
    · exact .inl ⟨hb, .aborted, false, congrArg State.status e⟩
    · exact .inr (.inr (.inr (by simp [State.writeTarget, e, Status.touched])))
  | status => exact .inr (.inr (.inl ⟨target_eq_status _ a ht, rfl⟩))
  | cfg => exact .inr (.inr (.inr (s.dropped_status_mem_touched _ _ (by simp [Status.touched]) (.head _))))
  | cmd => exact .inr (.inr (.inr (s.dropped_status_mem_touched _ _ (by simp [Status.touched]) (by simp [Status.touched]))))
  | operand i j => exact .inr (.inr (.inr (s.dropped_status_mem_touched _ _ (by simp [Status.touched]) (.head _))))
  | id | param | param2 | xsgn | reserved => exact .inr (.inr (.inr (.head _)))

/-- What a step can do to STATUS: the end of a running command, by completion or abort; a reset; the host's STATUS write; or
what leaves DONE down and OVR and ACCERR up. -/
theorem step_status_cases (s t : State) (h : step s = .next t) :
    (s.status.busy = true ∧ ∃ code res, t.status = s.status.completed code res)
      ∨ (∃ e, t = State.resetWith s.params e)
      ∨ (∃ v rest, s.env.host = .write 0x014 .four v :: rest ∧ t.status = s.status.writeOneToClear v)
      ∨ t.status ∈ s.status.touched := by
  rcases step_cases s with ⟨hb, e⟩ | ⟨k, e⟩
  · obtain ⟨-, hend⟩ := engineStep_completes s t (e ▸ h)
    exact .inl ⟨hb, hend⟩
  · rcases hostStep_cases _ t (e ▸ h) with ⟨env, rfl⟩ | ⟨a, v, rest, hh, rfl⟩ | ⟨rest, -, rfl⟩
    · exact .inr (.inr (.inr (.head _)))
    · rcases (s.setEnv ((s.env.setHold k).setHost rest)).busWrite_status_cases a v with hend | hreset | ⟨rfl, hclear⟩ | hkeep
      · exact .inl hend
      · exact .inr (.inl ⟨_, hreset⟩)
      · exact .inr (.inr (.inl ⟨v, rest, hh, hclear⟩))
      · exact .inr (.inr (.inr hkeep))
    · exact .inr (.inl ⟨_, rfl⟩)

end Sys2Proof.Machine
end

section
/-!
The statements of the family 60_exceptions: which error a command ends with, the abort, the interrupt output, and the sticky
bits.
-/
namespace Sys2Proof.Machine

/-- Settles O7: the engine refuses a word by decode or by the command's fields, and no `execute` answers ILLEGAL. -/
theorem illegalIffDecodeCheckFails : Obligations.IllegalIffDecodeCheckFails := by
  refine ⟨fun s t h => ?_, fun s t h ho => ?_⟩
  · rw [engineStep_errcode_eq_illegal_iff s t h, exists_decodeCheck_error_iff]
  · rw [engineStep_errcode_eq_illegal_iff s t h, exists_decodeCheck_eq_ok_iff, exists_decode_eq_ok_iff]
    omega

/-- Settles O33: irq after each operation from what it makes of IE and DONE. -/
theorem interruptOutput : Obligations.InterruptOutput := by
  refine ⟨fun s => rfl, fun s t h => ?_, fun s => Bool.and_true s.ie, fun s v h1 => ?_, fun s w hb => ?_, fun s => rfl,
    fun s hd => ?_, fun s => ?_⟩
  · obtain ⟨hie, code, res, hst⟩ := engineStep_completes s t h
    simp [State.irq, hie, hst]
  · have hdone : (s.status.writeOneToClear v).done = false := by
      rw [Status.writeOneToClear_done, h1, Bool.not_true, Bool.and_false]
    rw [s.busWrite_status v, State.irq, State.writeStatus, State.setStatus_status, hdone, Bool.and_false]
  · rw [s.busWrite_cmd w, s.writeCmd_idle w hb, State.irq, State.issue_status, Status.issued_done, Bool.and_false]
  · rw [s.busWrite_ctrl 0x1, s.writeCtrl_ie 0x1 rfl (.inl rfl)]
    exact hd
  · rw [s.busWrite_ctrl 0x0, s.writeCtrl_ie 0x0 rfl (.inl rfl)]
    exact ⟨rfl, rfl⟩

/-- Settles O34: of the ways in which a step can change STATUS, only the end of a running command sets DONE. -/
theorem doneRisesOnlyAtCompletion : Obligations.DoneRisesOnlyAtCompletion := by
  intro s t h hs ht
  rcases step_status_cases s t h with ⟨hb, code, res, hst⟩ | ⟨e, rfl⟩ | ⟨v, rest, -, hst⟩ | hst
  · exact ⟨hb, by rw [hst]; rfl⟩
  · cases ht
  · simp [hst, hs] at ht
  · obtain ⟨hdone, -, -⟩ := s.status.touched_keeps _ hst
    simp [hdone hs] at ht

/-- Settles O35: of the ways in which a step can change STATUS, only a STATUS write and a reset clear OVR or ACCERR. -/
theorem stickyFlagsClearedOnlyByHost : Obligations.StickyFlagsClearedOnlyByHost := by
  intro s t h
  rcases step_status_cases s t h with ⟨-, code, res, hst⟩ | hreset | ⟨v, rest, hh, hst⟩ | hst
  · simp +contextual [hst]
  · exact ⟨fun _ _ => .inr hreset, fun _ _ => .inr hreset⟩
  · exact ⟨fun hs ht => .inl ⟨v, rest, hh, by simpa [hst, hs] using ht⟩,
      fun hs ht => .inl ⟨v, rest, hh, by simpa [hst, hs] using ht⟩⟩
  · obtain ⟨-, hovr, haccerr⟩ := s.status.touched_keeps _ hst
    simp +contextual [hovr, haccerr]

/-- Settles O57: only PRIMETEST's `execute` answers ENTROPY, and not where the filter decides. -/
theorem entropyErrorOnlyWhileDrawing : Obligations.EntropyErrorOnlyWhileDrawing := by
  intro i s t h herr
  have hl : s.legal i = true := by
    by_contra hl
    simp [exec_errcode_of_not_legal i s t h (by simpa using hl)] at herr
  rw [exec_errcode_eq_iff_raises i s t h hl .entropy (by decide), raises_entropy_iff] at herr
  obtain ⟨rs1, rfl, hnone⟩ := herr
  obtain ⟨h5, hodd, htd⟩ := primeFilter_eq_none _ _ _ (primeFilter_of_primeAnswer_none s rs1 hnone)
  refine ⟨rs1, rfl, by omega, hodd, fun ht => ?_⟩
  simpa [inSmallPrimes, hasSmallFactor] using htd ht

/-- Settles O58: what each `execute` answers for its operands, behind the decode checks. -/
theorem errorCodesExactly : Obligations.ErrorCodesExactly := by
  refine ⟨fun i s t hl h => ?_, fun i s t hl h => exec_errcode_of_not_legal i s t h hl⟩
  have herr := exec_errcode_eq_iff_raises i s t h hl
  exact ⟨(herr .invalidParam (by decide)).trans (raises_invalidParam_iff i s),
    (herr .noInverse (by decide)).trans (raises_noInverse_iff i s)⟩

/-- Settles O14: the three branches of the CTRL write, and the read word. -/
theorem ctrlWriteAborts : Obligations.CtrlWriteAborts := by
  intro s v
  rw [s.busWrite_ctrl v, s.busRead_ctrl]
  exact ⟨fun h2 h1 hb => ⟨s.env.entropy, s.writeCtrl_abort v h2 h1 hb⟩, fun h2 h => s.writeCtrl_ie v h2 h,
    fun h2 => s.writeCtrl_reset v h2, ctrlWord_eq s.ie⟩

end Sys2Proof.Machine
end

section
/-!
The reset block as the host finds it (R41, R211): the CFG word of its reset value, and an operand file with no defined word.
-/
namespace Sys2Proof.Machine

theorem Cfg.toWord_toNat (c : Cfg) : c.toWord.toNat = c.mrRounds.toNat + 256 * c.tdEn.toNat := by
  have := c.mrRounds.isLt
  have := c.tdEn.toNat_le
  rw [Cfg.toWord, BitVec.toNat_ofNat]
  omega

/-- Above MR_ROUNDS the CFG word holds TD_EN and zeros (R33). -/
theorem Cfg.toWord_above_mrRounds (c : Cfg) : c.toWord.extractLsb' 8 24 = BitVec.ofNat 24 c.tdEn.toNat := by
  have := c.mrRounds.isLt
  have := c.tdEn.toNat_le
  apply extractLsb'_eq_of_toNat_div
  rw [c.toWord_toNat, BitVec.toNat_ofNat]
  omega

/-- A reset leaves every operand word undefined; a word outside the file reads as one too (R25). -/
theorem State.resetWith_word (p : Params) (e : Env) (i j : Nat) : (State.resetWith p e).word i j = OpWord.atReset := by
  rw [State.word, State.reg, State.resetWith_x]
  by_cases hi : i < p.nreg
  · rw [List.getD_replicate _ hi, List.getD_eq_getElem?_getD, List.getElem?_getD_replicate_default_eq]
  · have hout : (List.replicate p.nreg (List.replicate p.words OpWord.atReset)).length ≤ i := by simpa using hi
    rw [List.getD_eq_default _ [] hout, List.getD_nil]

end Sys2Proof.Machine
end

section
/-!
The statement of the family 70_reset_and_hazards: what a reset puts.
-/
namespace Sys2Proof.Machine

/-- Settles O15: a CTRL write with SRST set is the reset block, and each register of the reset block by its read. -/
theorem resetPutsEveryValue : Obligations.ResetPutsEveryValue := by
  intro s v rest hv
  have hcfg : s.resetBlock.busRead 0x018 = Cfg.toWord ⟨s.params.mrRoundsReset, true⟩ := State.busRead_cfg _
  refine ⟨s.writeCtrl_reset v hv, rfl, rfl, rfl, rfl, rfl, ?_, ?_, fun h40 => ?_, rfl, rfl, rfl, rfl, fun i j => ?_⟩
  · obtain ⟨hrounds, -, -⟩ := Cfg.toWord_fields ⟨s.params.mrRoundsReset, true⟩
    rw [hcfg, hrounds]
  · exact hcfg ▸ Cfg.toWord_above_mrRounds _
  · rw [hcfg, h40]
    rfl
  · rw [s.resetBlock_eq, State.resetWith_word]
    rfl

end Sys2Proof.Machine
end
